-- ==== Sys2Proof/Word.lean ====
section
/-! DEFINITION. The word types whose width a pixel format fixes (00_scope.md R5, R12). Bit 0 is the least significant bit. -/

namespace Sys2Proof

/-- A storage word of `W` bits, such as `PIX` (00_scope.md R5, 10_state.md R17). -/
abbrev Word (W : Nat) := BitVec W

/-- The 3-bit port `cmd_op` (10_state.md R23). -/
abbrev OpField := BitVec 3

end Sys2Proof
end

