-- ==== Sys2Proof/Config.lean ====
section
/-! DEFINITION. What elaboration fixes: the pixel format (00_scope.md R5 to R10) and the byte order of a serialised word
(20_memory.md R31). What is computed from a format stands in Machine/Format.lean. The spec leaves no result undefined, so
there is no free value here. -/

namespace Sys2Proof

/-- The four channels, in the document's order (00_scope.md R7, 30_encoding.md R39). -/
inductive Channel where
  | red | green | blue | alpha
deriving DecidableEq, Repr

/-- The pixel format: the tuple `(W, CW, w_R, w_G, w_B, w_A, o_R, o_G, o_B, o_A)` (00_scope.md R5, R6, R7). Static
configuration: no command reads or writes it (10_state.md R21). -/
structure Format where
  /-- `W`, the storage word width in bits (R5). -/
  W : Nat
  /-- `CW`, the channel value width in bits (R6). -/
  CW : Nat
  /-- `w_R`, `w_G`, `w_B`, `w_A`, the channels' bit-widths, zero allowed (R7). -/
  wR : Nat
  wG : Nat
  wB : Nat
  wA : Nat
  /-- `o_R`, `o_G`, `o_B`, `o_A`, the channels' bit-offsets (R7). -/
  oR : Nat
  oG : Nat
  oB : Nat
  oA : Nat
deriving DecidableEq, Repr

/-- The parameter `STORAGE_BYTE_ORDER`, left open by the spec (20_memory.md R31, decision D11). -/
inductive ByteOrder where
  | little | big
deriving DecidableEq, Repr

end Sys2Proof
end

