-- ==== Sys2Proof/Machine/Format.lean ====
section
/-! DEFINITION. What is computed from a pixel format: the channels' widths and offsets, the operand bus width, the
well-formedness check, the derived sizes and the five standard formats (00_scope.md R7 to R11, 30_encoding.md R37). -/

namespace Sys2Proof

/-- The four channels, in the document's order R, G, B, A (00_scope.md R7). -/
def Channel.all : List Channel := [.red, .green, .blue, .alpha]

/-- `w_c` (00_scope.md R7). -/
def Format.width (f : Format) : Channel → Nat
  | .red => f.wR
  | .green => f.wG
  | .blue => f.wB
  | .alpha => f.wA

/-- `o_c` (00_scope.md R7). -/
def Format.offset (f : Format) : Channel → Nat
  | .red => f.oR
  | .green => f.oG
  | .blue => f.oB
  | .alpha => f.oA

/-- `DW = max(W, 4*CW)`, the width of the operand bus `cmd_data` (30_encoding.md R37). -/
def Format.DW (f : Format) : Nat := max f.W (4 * f.CW)

/-- R9 condition 1: every field lies inside the word, read per field (90_conflicts.md C1). -/
def Format.fits (f : Format) : Bool :=
  Channel.all.all fun c => decide (f.offset c + f.width c ≤ f.W)

/-- The bit ranges of `c` and `d` share no bit, or one of them is empty (00_scope.md R9 condition 2). -/
def Format.apart (f : Format) (c d : Channel) : Bool :=
  decide (f.width c = 0) || decide (f.width d = 0) ||
    decide (f.offset c + f.width c ≤ f.offset d) || decide (f.offset d + f.width d ≤ f.offset c)

/-- R9 condition 2: no two distinct channels overlap. -/
def Format.noOverlap (f : Format) : Bool :=
  Channel.all.all fun c => Channel.all.all fun d => decide (c = d) || f.apart c d

/-- R9 condition 3: every channel fits its type (decision D6). -/
def Format.channelsFit (f : Format) : Bool :=
  Channel.all.all fun c => decide (f.width c ≤ f.CW)

/-- A format is admitted: the three conditions of 00_scope.md R9, and `W` positive as R5 requires (DEDUCED, log 5: safe). -/
def Format.wf (f : Format) : Bool :=
  decide (0 < f.W) && f.fits && f.noOverlap && f.channelsFit

/-- `BitsPerPixel` (00_scope.md R10). -/
def Format.bitsPerPixel (f : Format) : Nat := f.wR + f.wG + f.wB + f.wA

/-- `BytesPerPixel` (00_scope.md R10); not the width of the storage word (90_conflicts.md C2). -/
def Format.bytesPerPixel (f : Format) : Nat := (f.bitsPerPixel + 7) / 8

/-- A format with the default offsets: packed consecutively from bit 0 (00_scope.md R8). -/
def Format.packed (W CW wR wG wB wA : Nat) : Format :=
  { W, CW, wR, wG, wB, wA, oR := 0, oG := wR, oB := wR + wG, oA := wR + wG + wB }

/-- The standard formats of 00_scope.md R11, with default offsets and `CW = 8` as the spec decides (D4, D5). The literals
are unaudited in the source (UNVERIFIED, log 6: unsafe for a repository whose formats differ). -/
def Format.rgba8888 : Format := .packed 32 8 8 8 8 8

/-- 16-bit RGBA 4/4/4/4 (00_scope.md R11). -/
def Format.rgba4444 : Format := .packed 16 8 4 4 4 4

/-- 16-bit RGBA 5/5/5/1 (00_scope.md R11). -/
def Format.rgba5551 : Format := .packed 16 8 5 5 5 1

/-- 32-bit RGB with zero-width alpha, padding bits 31:24 (00_scope.md R11). -/
def Format.rgb888x : Format := .packed 32 8 8 8 8 0

/-- 16-bit RGB 5/6/5, zero-width alpha at offset `W` (00_scope.md R11). -/
def Format.rgb565 : Format := .packed 16 8 5 6 5 0

/-- The five formats the document provides (00_scope.md R11). -/
def Format.standard : List Format := [.rgba8888, .rgba4444, .rgba5551, .rgb888x, .rgb565]

end Sys2Proof
end

