-- ==== Sys2Proof/Machine/Fields.lean ====
section
/-! DEFINITION. The channel bit-fields of a storage word: masks, extraction, insertion and packing (00_scope.md R12 to R16,
40_construct.md R45). Shifts are on unbounded naturals and the result is taken modulo `2^W` (R12, decision D25). -/

namespace Sys2Proof

/-- `wmask_c = 2^(w_c) - 1` (00_scope.md R13). -/
def widthMask (f : Format) (c : Channel) : Nat := 2 ^ f.width c - 1

/-- `M_c = (wmask_c << o_c) mod 2^W` (00_scope.md R14). -/
def fieldMask (f : Format) (c : Channel) : Word f.W :=
  BitVec.ofNat f.W (widthMask f c <<< f.offset c)

/-- `P`, the bits that belong to no channel (00_scope.md R14). -/
def paddingMask (f : Format) : Word f.W :=
  BitVec.allOnes f.W &&&
    ~~~(fieldMask f .red ||| fieldMask f .green ||| fieldMask f .blue ||| fieldMask f .alpha)

/-- The reference extraction function `ChannelOf(x, c)`, not an output of the block (00_scope.md R15). -/
def channelOf (f : Format) (x : Word f.W) (c : Channel) : Nat :=
  (x &&& fieldMask f c).toNat >>> f.offset c

/-- `((v & wmask_c) << o_c) mod 2^W`, a channel value masked to its width and moved into place (00_scope.md R16). -/
def placed (f : Format) (c : Channel) (v : Nat) : Word f.W :=
  BitVec.ofNat f.W ((v &&& widthMask f c) <<< f.offset c)

/-- The insert primitive: clear the field, then or the new value in (00_scope.md R16). -/
def insertField (f : Format) (x : Word f.W) (c : Channel) (v : Nat) : Word f.W :=
  (x &&& ~~~fieldMask f c) ||| placed f c v

/-- The word PACK builds, from 0 (40_construct.md R45). -/
def packWord (f : Format) (r g b a : Nat) : Word f.W :=
  (0 : Word f.W) ||| placed f .red r ||| placed f .green g ||| placed f .blue b ||| placed f .alpha a

end Sys2Proof
end

