-- ==== Sys2Proof/Machine/Operands.lean ====
section
/-! DEFINITION. Operand assembly: which bits of `cmd_data` are which operand, and the bus that carries given operands
(30_encoding.md R38, R42). Unsigned, no extension, no scaling; bits an opcode does not name are ignored. -/

namespace Sys2Proof

/-- `raw = cmd_data[W-1:0]` (30_encoding.md R38). -/
def rawOperand (f : Format) (data : BitVec f.DW) : Nat :=
  (data.extractLsb' 0 f.W).toNat

/-- The `k`-th channel operand, `cmd_data[(k+1)*CW-1 : k*CW]`: `v` and `r` are number 0, `g` 1, `b` 2, `a` 3
(30_encoding.md R38). -/
def channelOperand (f : Format) (k : Nat) (data : BitVec f.DW) : Nat :=
  (data.extractLsb' (k * f.CW) f.CW).toNat

/-- `zext_DW(v)`: one operand in the low bits of the bus, every other bit 0 (30_encoding.md R42). -/
def oneOperandBus (f : Format) (v : Nat) : BitVec f.DW :=
  BitVec.ofNat f.DW v

/-- `zext_DW({a, b, g, r})`, each operand `CW` bits wide (30_encoding.md R42, R38). -/
def packBus (f : Format) (r g b a : Nat) : BitVec f.DW :=
  (BitVec.ofNat f.CW a ++ BitVec.ofNat f.CW b ++ BitVec.ofNat f.CW g ++ BitVec.ofNat f.CW r).setWidth f.DW

end Sys2Proof
end

