-- ==== Sys2Proof/Syntax.lean ====
section
/-! DEFINITION. The seven commands of the block (30_encoding.md R39), one constructor per row of opcode_table.json. -/

namespace Sys2Proof

/-- A command with its operands. The operands are the unsigned numbers of 30_encoding.md R38 (00_scope.md R12: every value
is an unsigned integer); how wide they may be depends on the format, so the bound is `Instr.wf` of WellFormed.lean
(DESIGN CHOICE, log 7: safe). -/
inductive Instr where
  /-- NOP (40_construct.md R43). -/
  | nop
  /-- LOAD raw (40_construct.md R44). -/
  | load (raw : Nat)
  /-- PACK r, g, b, a (40_construct.md R45). -/
  | pack (r g b a : Nat)
  /-- SETR v (41_channel_set.md R46). -/
  | setr (v : Nat)
  /-- SETG v (41_channel_set.md R47). -/
  | setg (v : Nat)
  /-- SETB v (41_channel_set.md R48). -/
  | setb (v : Nat)
  /-- SETA v (41_channel_set.md R49). -/
  | seta (v : Nat)
deriving DecidableEq, Repr

end Sys2Proof
end

