-- ==== Sys2Proof/WellFormed.lean ====
section
/-! DEFINITION. When a command is one the assembler can write for a format (30_encoding.md R42). The format's own check is
`Format.wf` of Machine/Format.lean (00_scope.md R9). -/

namespace Sys2Proof

/-- Every operand fits its width: `raw < 2^W`, each channel value `< 2^CW` (30_encoding.md R42, R38). -/
def Instr.wf (f : Format) : Instr → Bool
  | .nop => true
  | .load raw => decide (raw < 2 ^ f.W)
  | .pack r g b a =>
      decide (r < 2 ^ f.CW) && decide (g < 2 ^ f.CW) && decide (b < 2 ^ f.CW) && decide (a < 2 ^ f.CW)
  | .setr v => decide (v < 2 ^ f.CW)
  | .setg v => decide (v < 2 ^ f.CW)
  | .setb v => decide (v < 2 ^ f.CW)
  | .seta v => decide (v < 2 ^ f.CW)

end Sys2Proof
end

