-- ==== Sys2Proof/Decode.lean ====
section
/-! DEFINITION. The decoder of a command, total on any port value, and after it the encoder, both written from the opcode map
(30_encoding.md R36 to R42). -/

namespace Sys2Proof

/-- Why a bit pattern is no command. -/
inductive DecodeError where
  /-- `cmd_op = 011` spells no command (30_encoding.md R40). -/
  | reservedOpcode
  /-- A number of more than `3 + DW` bits is no command word (30_encoding.md R36; DESIGN CHOICE, log 8: safe). -/
  | wordTooWide
deriving DecidableEq, Repr

/-- The command that the pair (`cmd_op`, `cmd_data`) presents (30_encoding.md R36, R38, R39). -/
def decode (f : Format) (op : OpField) (data : BitVec f.DW) : Except DecodeError Instr :=
  match op.toNat with
  | 0 => .ok .nop
  | 1 => .ok (.load (rawOperand f data))
  | 2 => .ok (.pack (channelOperand f 0 data) (channelOperand f 1 data) (channelOperand f 2 data)
      (channelOperand f 3 data))
  | 4 => .ok (.setr (channelOperand f 0 data))
  | 5 => .ok (.setg (channelOperand f 0 data))
  | 6 => .ok (.setb (channelOperand f 0 data))
  | 7 => .ok (.seta (channelOperand f 0 data))
  | _ => .error .reservedOpcode

/-- `cmd_op` of a command word: bits `DW+2 .. DW` (30_encoding.md R36). -/
def wordOp (f : Format) (cmd : Nat) : OpField := BitVec.ofNat 3 (cmd / 2 ^ f.DW)

/-- `cmd_data` of a command word: bits `DW-1 .. 0` (30_encoding.md R36). -/
def wordData (f : Format) (cmd : Nat) : BitVec f.DW := BitVec.ofNat f.DW cmd

/-- The command of a command word `CMD = cmd_op * 2^DW + cmd_data` (30_encoding.md R36). -/
def decodeWord (f : Format) (cmd : Nat) : Except DecodeError Instr :=
  if cmd < 2 ^ (f.DW + 3) then decode f (wordOp f cmd) (wordData f cmd) else .error .wordTooWide

/-- The opcode of a command (30_encoding.md R39). -/
def opcode : Instr → OpField
  | .nop => 0b000
  | .load _ => 0b001
  | .pack _ _ _ _ => 0b010
  | .setr _ => 0b100
  | .setg _ => 0b101
  | .setb _ => 0b110
  | .seta _ => 0b111

/-- The operand bus of a command, every bit its opcode does not name 0 (30_encoding.md R42). -/
def operandBus (f : Format) : Instr → BitVec f.DW
  | .nop => 0
  | .load raw => oneOperandBus f raw
  | .pack r g b a => packBus f r g b a
  | .setr v => oneOperandBus f v
  | .setg v => oneOperandBus f v
  | .setb v => oneOperandBus f v
  | .seta v => oneOperandBus f v

/-- The command word of a command, `{cmd_op, cmd_data}` (30_encoding.md R36). -/
def encode (f : Format) (i : Instr) : Nat :=
  (opcode i).toNat * 2 ^ f.DW + (operandBus f i).toNat

/-- The instruction of an opcode-table word, whose layout is that of the standard formats with `W = 32`, `CW = 8` and
`DW = 32` (30_encoding.md R36, opcode_table.json). There are no bytes to order: the word is presented on the port whole. -/
def decodeTableWord (nbits w : Nat) : Option Instr :=
  (decodeWord Format.rgba8888 (w % 2 ^ nbits)).toOption

end Sys2Proof
end

