-- ==== Sys2Proof/Machine/State.lean ====
section
/-! DEFINITION. The machine's state as plain data, the reasons a step or a read can stop, and the states before and after the
first reset (10_state.md R17 to R27, 60_exceptions.md R54). -/

namespace Sys2Proof.Machine

/-- The input ports at one rising edge of `clk` (10_state.md R23). -/
structure PortSample (DW : Nat) where
  /-- `rst`: synchronous reset, active high (70_reset_and_hazards.md R62). -/
  rst : Bool
  /-- `cmd_valid`: a command is presented (10_state.md R25). -/
  cmdValid : Bool
  /-- `cmd_op` (30_encoding.md R39). -/
  cmdOp : OpField
  /-- `cmd_data`, the operand bus (30_encoding.md R37). -/
  cmdData : BitVec DW
deriving DecidableEq, Repr

/-- The whole machine. `PIX` is the block's only architectural state (10_state.md R17, R22). -/
structure State where
  /-- The pixel format the block was elaborated with. Static: no step changes it (10_state.md R21). It stands here so that
  a statement about every state speaks of every format (DESIGN CHOICE, log 1). -/
  fmt : Format
  /-- `PIX` (10_state.md R17). `none` is the spec's own state before the first reset, in which `PIX` holds no defined value
  (10_state.md R27, decision D10; log 3); from the first reset on it holds a value. -/
  pix : Option (Word fmt.W)
  /-- What the host drives on the input ports, one sample per rising edge, the next one first (20_memory.md R34; DESIGN
  CHOICE, log 2). After the last sample the host presents nothing. -/
  port : List (PortSample fmt.DW)
deriving DecidableEq, Repr

/-- Why the model faults. The block itself raises nothing (60_exceptions.md R54). -/
inductive Fault where
  /-- Raised by a read of `pix_out` before the first reset (10_state.md R27). Safe. No step raises it. -/
  | pixOutReadBeforeReset
deriving DecidableEq, Repr

/-- Why the model has no next state (60_exceptions.md R54). -/
inductive Refusal where
  /-- Kept for an arm of `exec` without a meaning; no arm raises it. Safe. -/
  | notModelled (mnemonic : String)
  /-- Raised by everything the model does with a format that fails 00_scope.md R9: the block is not defined for it. Safe. -/
  | illFormedFormat
  /-- Raised by the step that meets a presented bit pattern which spells no command; on the port that is `cmd_op = 011`
  (30_encoding.md R40). Safe. -/
  | undecodable (e : DecodeError)
  /-- Raised by every meaning before the first reset: the rules of the spec do not hold yet, and the host must not present a
  command (70_reset_and_hazards.md R63, R64; DEDUCED, log 4). Safe. -/
  | commandBeforeReset
deriving DecidableEq, Repr

/-- The block after power-up, before the first reset: `PIX` undefined (10_state.md R27). -/
def State.powerUp (f : Format) : State := { fmt := f, pix := none, port := [] }

/-- The block of format `f` right after reset: `PIX = 0` (10_state.md R27, 70_reset_and_hazards.md R62, R63). -/
def State.resetOf (f : Format) : State := { fmt := f, pix := some 0, port := [] }

/-- The machine right after reset, with the format RGBA8888 (DESIGN CHOICE, log 1) and a host that presents nothing. -/
def State.reset : State := State.resetOf Format.rgba8888

end Sys2Proof.Machine
end

