-- ==== Sys2Proof/Machine/Ops.lean ====
section
/-! DEFINITION. The named operations on the state: reading and writing `PIX`, reset, the host's port, elaboration. The block
takes no exception and returns from none (60_exceptions.md R54, R57), so there is no such operation. -/

namespace Sys2Proof.Machine

/-- `PIX <- x`, all `W` bits at once (20_memory.md R33). -/
def State.setPix (s : State) (x : Word s.fmt.W) : State := { s with pix := some x }

/-- The state whose host will drive `es`. -/
def State.withPort (s : State) (es : List (PortSample s.fmt.DW)) : State := { s with port := es }

/-- Reset: `PIX <- 0`, no other effect (70_reset_and_hazards.md R62). -/
def State.applyReset (s : State) : State := s.setPix 0

/-- The one way a command writes `PIX`: the new value computed from the old one, in one indivisible step (20_memory.md R33).
Before the first reset there is no old value and no command runs (70_reset_and_hazards.md R63, R64; log 4). -/
def State.commit (s : State) (g : Word s.fmt.W → Word s.fmt.W) : Host.Outcome State Fault Refusal :=
  if s.fmt.wf then
    match s.pix with
    | some x => .next (s.setPix (g x))
    | none => .refused .commandBeforeReset
  else .refused .illFormedFormat

/-- A read of `pix_out`, which equals `PIX` and has no side effect (10_state.md R24, 20_memory.md R33); before the first
reset it faults (10_state.md R27). -/
def State.pixOut (s : State) : Host.Outcome (Word s.fmt.W) Fault Refusal :=
  if s.fmt.wf then
    match s.pix with
    | some x => .next x
    | none => .fault .pixOutReadBeforeReset
  else .refused .illFormedFormat

/-- Elaboration: a format that fails the check is refused (00_scope.md R9, 70_reset_and_hazards.md R63). -/
def elaborate (f : Format) : Host.Outcome State Fault Refusal :=
  if f.wf then .next (State.powerUp f) else .refused .illFormedFormat

/-- A command presented without reset (30_encoding.md R36). -/
def PortSample.present {DW : Nat} (op : OpField) (data : BitVec DW) : PortSample DW :=
  { rst := false, cmdValid := true, cmdOp := op, cmdData := data }

/-- The port values that present the command `i` (30_encoding.md R42). -/
def PortSample.command (f : Format) (i : Instr) : PortSample f.DW :=
  .present (opcode i) (operandBus f i)

/-- The host asserts `rst` for one edge and presents no command (30_encoding.md R42). -/
def PortSample.reset {DW : Nat} : PortSample DW :=
  { rst := true, cmdValid := false, cmdOp := 0, cmdData := 0 }

end Sys2Proof.Machine
end

