-- ==== Sys2Proof/Machine/ChannelSet.lean ====
section
/-! DEFINITION. The channel set commands SETR, SETG, SETB and SETA (41_channel_set.md R46 to R49). -/

namespace Sys2Proof.Machine

/-- SETR: `PIX <- Insert(PIX, R, v)` (41_channel_set.md R46). -/
def execSetr (v : Nat) (s : State) : Host.Outcome State Fault Refusal :=
  s.commit fun x => insertField s.fmt x .red v

/-- SETG: `PIX <- Insert(PIX, G, v)` (41_channel_set.md R47). -/
def execSetg (v : Nat) (s : State) : Host.Outcome State Fault Refusal :=
  s.commit fun x => insertField s.fmt x .green v

/-- SETB: `PIX <- Insert(PIX, B, v)` (41_channel_set.md R48). -/
def execSetb (v : Nat) (s : State) : Host.Outcome State Fault Refusal :=
  s.commit fun x => insertField s.fmt x .blue v

/-- SETA: `PIX <- Insert(PIX, A, v)` (41_channel_set.md R49). -/
def execSeta (v : Nat) (s : State) : Host.Outcome State Fault Refusal :=
  s.commit fun x => insertField s.fmt x .alpha v

end Sys2Proof.Machine
end

