-- ==== Sys2Proof/Machine/Construct.lean ====
section
/-! DEFINITION. The construction commands NOP, LOAD and PACK (40_construct.md R43 to R45). -/

namespace Sys2Proof.Machine

/-- NOP: `PIX <- PIX` (40_construct.md R43). -/
def execNop (s : State) : Host.Outcome State Fault Refusal :=
  s.commit fun x => x

/-- LOAD: `PIX <- raw`, padding bits included, nothing masked (40_construct.md R44). -/
def execLoad (raw : Nat) (s : State) : Host.Outcome State Fault Refusal :=
  s.commit fun _ => BitVec.ofNat s.fmt.W raw

/-- PACK: `PIX` built from 0 by the four masked and shifted channel values (40_construct.md R45). -/
def execPack (r g b a : Nat) (s : State) : Host.Outcome State Fault Refusal :=
  s.commit fun _ => packWord s.fmt r g b a

end Sys2Proof.Machine
end

