-- ==== Sys2Proof/Machine/Dispatch.lean ====
section
/-! DEFINITION. One arm per command: its meaning (30_encoding.md R39). -/

namespace Sys2Proof.Machine

def exec (i : Instr) (s : State) : Host.Outcome State Fault Refusal :=
  match i with
  | .nop => Sys2Proof.Machine.execNop s
  | .load raw => Sys2Proof.Machine.execLoad raw s
  | .pack r g b a => Sys2Proof.Machine.execPack r g b a s
  | .setr v => Sys2Proof.Machine.execSetr v s
  | .setg v => Sys2Proof.Machine.execSetg v s
  | .setb v => Sys2Proof.Machine.execSetb v s
  | .seta v => Sys2Proof.Machine.execSeta v s

end Sys2Proof.Machine
end

