-- ==== Sys2Proof/Machine/Edge.lean ====
section
/-! DEFINITION. What happens at one rising edge of `clk` (10_state.md R23, R25; 60_exceptions.md R56). -/

namespace Sys2Proof.Machine

/-- One rising edge with the port values `e`: reset wins over a command (60_exceptions.md R56), no command changes nothing
(10_state.md R25), a presented command is decoded and runs, a reserved one is refused (30_encoding.md R40). -/
def sampleEdge (s : State) (e : PortSample s.fmt.DW) : Host.Outcome State Fault Refusal :=
  if e.rst then .next s.applyReset
  else if e.cmdValid then
    match decode s.fmt e.cmdOp e.cmdData with
    | .ok i => exec i s
    | .error r => .refused (.undecodable r)
  else .next s

/-- The next rising edge: the host's next sample is consumed and takes effect. When the host drives no further sample it
presents nothing, which changes nothing (10_state.md R25; DESIGN CHOICE, log 2). -/
def risingEdge (s : State) : Host.Outcome State Fault Refusal :=
  if s.fmt.wf then
    match s.port with
    | [] => .next s
    | e :: es => sampleEdge (s.withPort es) e
  else .refused .illFormedFormat

/-- The host presents the command word `cmd` at the next edge, before anything it was going to drive
(30_encoding.md R36). -/
def State.presentWord (s : State) (cmd : Nat) : State :=
  s.withPort (.present (wordOp s.fmt cmd) (wordData s.fmt cmd) :: s.port)

end Sys2Proof.Machine
end

