-- ==== Sys2Proof/Machine/Step.lean ====
section
/-! DEFINITION. One step of the machine: one rising edge of `clk` (70_reset_and_hazards.md R66). -/

namespace Sys2Proof.Machine

/-- One rising edge of `clk` (DEDUCED, log 12). -/
def step (s : State) : Host.Outcome State Fault Refusal := risingEdge s

/-- The state whose very next step runs the command word `w`: the block fetches nothing, its host presents the word at the
next edge (log 2). -/
def State.withFetchWord (s : State) (nbits w : Nat) : State := s.presentWord (w % 2 ^ nbits)

end Sys2Proof.Machine
end

