-- ==== Sys2Proof/Machine/Asm.lean ====
section
/-! DEFINITION. The assembly language of the spec's test programs (30_encoding.md R42): its lines, the pseudo-commands'
expansions, the operand check, and the reading of a line's text. -/

namespace Sys2Proof.Machine

/-- One line of assembly (30_encoding.md R42). -/
inductive AsmLine where
  /-- A command by its own mnemonic. -/
  | command (i : Instr)
  /-- The pseudo-command CLEAR. -/
  | clear
  /-- The pseudo-command `SET c, v`. -/
  | set (c : Channel) (v : Nat)
  /-- RESET: not a command, the host asserts `rst` for one cycle. -/
  | reset
deriving DecidableEq, Repr

/-- Why the assembler refuses a line (30_encoding.md R42). -/
inductive AsmError where
  /-- The line is no line of the syntax table. -/
  | syntaxError
  /-- An operand does not fit its width. -/
  | operandTooWide
deriving DecidableEq, Repr

/-- SETR, SETG, SETB or SETA by its channel (30_encoding.md R39). -/
def setCommand (c : Channel) (v : Nat) : Instr :=
  match c with
  | .red => .setr v
  | .green => .setg v
  | .blue => .setb v
  | .alpha => .seta v

/-- The command a line stands for, pseudo-commands expanded; RESET is none (30_encoding.md R42). -/
def AsmLine.expand : AsmLine → Option Instr
  | .command i => some i
  | .clear => some (.load 0)
  | .set c v => some (setCommand c v)
  | .reset => none

/-- The port values a line stands for; an operand that does not fit its width is refused (30_encoding.md R42). -/
def assembleLine (f : Format) (l : AsmLine) : Except AsmError (PortSample f.DW) :=
  match l.expand with
  | none => .ok .reset
  | some i => if i.wf f then .ok (.command f i) else .error .operandTooWide

/-- A piece of a line's text. -/
inductive AsmToken where
  | word (cs : List Char)
  | comma
deriving DecidableEq, Repr

/-- The pending characters of a word, if there are any, as a token. -/
def flushWord (acc : List Char) : List AsmToken :=
  if acc.isEmpty then [] else [.word acc]

/-- A line's tokens: white space and commas separate words, a semicolon begins a comment (30_encoding.md R42; what counts as
white space is a DESIGN CHOICE, log 10: safe). -/
def lexLine (acc : List Char) : List Char → List AsmToken
  | [] => flushWord acc
  | c :: cs =>
    if c = ';' then flushWord acc
    else if c = ',' then flushWord acc ++ .comma :: lexLine [] cs
    else if c.isWhitespace then flushWord acc ++ lexLine [] cs
    else lexLine (acc ++ [c]) cs

/-- The value of a digit in the given base; hexadecimal digits in either case (DESIGN CHOICE, log 10: safe). -/
def digitValue (base : Nat) (c : Char) : Option Nat :=
  let n := c.toNat
  let v :=
    if 48 ≤ n ∧ n ≤ 57 then n - 48
    else if 65 ≤ n ∧ n ≤ 70 then n - 55
    else if 97 ≤ n ∧ n ≤ 102 then n - 87
    else base
  if v < base then some v else none

/-- The value of a run of digits read on from `acc`. -/
def digitsValue (base acc : Nat) : List Char → Option Nat
  | [] => some acc
  | c :: cs => (digitValue base c).bind fun d => digitsValue base (acc * base + d) cs

/-- An unsigned operand, decimal or `0x` hexadecimal (30_encoding.md R42). -/
def numberValue : List Char → Option Nat
  | [] => none
  | ['0', 'x'] => none
  | '0' :: 'x' :: ds => digitsValue 16 0 ds
  | ds => digitsValue 10 0 ds

/-- The operands of a line: words with one comma between each two (30_encoding.md R42). -/
def operandList : List AsmToken → Option (List (List Char))
  | [] => some []
  | [.word a] => some [a]
  | .word a :: .comma :: .word b :: rest => (operandList (.word b :: rest)).map (a :: ·)
  | _ => none

/-- The channel named by `SET R`, `SET G`, `SET B` or `SET A` (30_encoding.md R42). -/
def channelNamed (cs : List Char) : Option Channel :=
  if cs = ['R'] then some .red
  else if cs = ['G'] then some .green
  else if cs = ['B'] then some .blue
  else if cs = ['A'] then some .alpha
  else none

/-- The line of a mnemonic and its operands (30_encoding.md R42's two tables). -/
def lineOf (m : List Char) (args : List (List Char)) : Option AsmLine :=
  match args with
  | [] =>
    if m = ['N', 'O', 'P'] then some (.command .nop)
    else if m = ['C', 'L', 'E', 'A', 'R'] then some .clear
    else if m = ['R', 'E', 'S', 'E', 'T'] then some .reset
    else none
  | [x] =>
    (numberValue x).bind fun v =>
      if m = ['L', 'O', 'A', 'D'] then some (.command (.load v))
      else if m = ['S', 'E', 'T', 'R'] then some (.command (.setr v))
      else if m = ['S', 'E', 'T', 'G'] then some (.command (.setg v))
      else if m = ['S', 'E', 'T', 'B'] then some (.command (.setb v))
      else if m = ['S', 'E', 'T', 'A'] then some (.command (.seta v))
      else none
  | [c, x] =>
    if m = ['S', 'E', 'T'] then
      (channelNamed c).bind fun c => (numberValue x).map fun v => .set c v
    else none
  | [r, g, b, a] =>
    if m = ['P', 'A', 'C', 'K'] then
      (numberValue r).bind fun r => (numberValue g).bind fun g => (numberValue b).bind fun b =>
        (numberValue a).map fun a => .command (.pack r g b a)
    else none
  | _ => none

/-- A line's text read; a line with no command on it (empty, or a comment alone) is `none` (30_encoding.md R42). -/
def parseLine (text : List Char) : Except AsmError (Option AsmLine) :=
  match lexLine [] text with
  | [] => .ok none
  | .comma :: _ => .error .syntaxError
  | .word m :: rest =>
    match (operandList rest).bind (lineOf m) with
    | some l => .ok (some l)
    | none => .error .syntaxError

/-- A program's text, one line a list: the port values it presents, in order (30_encoding.md R42). -/
def assembleText (f : Format) : List (List Char) → Except AsmError (List (PortSample f.DW))
  | [] => .ok []
  | line :: lines =>
    match parseLine line with
    | .error e => .error e
    | .ok none => assembleText f lines
    | .ok (some l) =>
      match assembleLine f l, assembleText f lines with
      | .ok e, .ok es => .ok (e :: es)
      | .error e, _ => .error e
      | _, .error e => .error e

end Sys2Proof.Machine
end

