-- ==== Sys2Proof/Machine/Serial.lean ====
section
/-! DEFINITION. A storage word laid out as bytes, with the byte order as a parameter (20_memory.md R31). The block itself never
does this. -/

namespace Sys2Proof

/-- Byte `k` of a word: its bits `8k+7 .. 8k`. -/
def wordByte {W : Nat} (x : Word W) (k : Nat) : BitVec 8 := x.extractLsb' (8 * k) 8

/-- The bytes of a word at rising addresses, under `STORAGE_BYTE_ORDER` (20_memory.md R31, decision D11). Where `W` is no
whole number of bytes, the most significant byte is extended with zeros (DESIGN CHOICE, log 9: unsafe). -/
def storageBytes (order : ByteOrder) {W : Nat} (x : Word W) : List (BitVec 8) :=
  let bytes := (List.range ((W + 7) / 8)).map (wordByte x)
  match order with
  | .little => bytes
  | .big => bytes.reverse

end Sys2Proof
end

