-- ==== Sys2Proof/Safety.lean ====
section
/-! DEFINITION. The terms claims are stated in: a running block, padding that is clear, a run and its observation
(70_reset_and_hazards.md R63, R67). -/

namespace Sys2Proof.Machine

/-- The format is admitted and the first reset has happened, so the rules of the spec hold (70_reset_and_hazards.md R63). -/
abbrev State.Running (s : State) : Prop := s.fmt.wf = true ∧ s.pix.isSome = true

/-- `PIX` holds a value whose padding bits are all 0 (10_state.md R26). -/
def State.PaddingClear (s : State) : Prop := ∃ x, s.pix = some x ∧ x &&& paddingMask s.fmt = 0

/-- The sample presents the command LOAD without reset (30_encoding.md R39, 60_exceptions.md R56). -/
def PortSample.presentsLoad {DW : Nat} (e : PortSample DW) : Bool :=
  !e.rst && e.cmdValid && e.cmdOp == 0b001

/-- The sample presents the reserved opcode without reset (30_encoding.md R40, 60_exceptions.md R56). -/
def PortSample.presentsReserved {DW : Nat} (e : PortSample DW) : Bool :=
  !e.rst && e.cmdValid && e.cmdOp == 0b011

/-- Bit `i` lies in channel `c`'s field `[o_c, o_c + w_c)` (20_memory.md R30). -/
abbrev InField (f : Format) (c : Channel) (i : Nat) : Prop := f.offset c ≤ i ∧ i < f.offset c + f.width c

/-- `y` is `x` with channel `c`'s field replaced by the low `w_c` bits of `v`, bit by bit: every bit of the field is `v`'s,
every other bit is `x`'s (41_channel_set.md R46 to R49). -/
def FieldReplaced (f : Format) (c : Channel) (v : Nat) (x y : Word f.W) : Prop :=
  (∀ i, i < f.width c → y.getLsbD (f.offset c + i) = v.testBit i) ∧
    ∀ i, i < f.W → ¬ InField f c i → y.getLsbD i = x.getLsbD i

/-- `y`'s every field holds its channel's value in `v`, truncated, and every bit outside all fields is 0, bit by bit
(40_construct.md R45). -/
def PackedFrom (f : Format) (v : Channel → Nat) (y : Word f.W) : Prop :=
  (∀ c i, i < f.width c → y.getLsbD (f.offset c + i) = (v c).testBit i) ∧
    ∀ i, i < f.W → (∀ c, ¬ InField f c i) → y.getLsbD i = false

/-- The four operands of PACK by channel, in the document's order R, G, B, A (30_encoding.md R38). -/
def packValue (r g b a : Nat) : Channel → Nat
  | .red => r
  | .green => g
  | .blue => b
  | .alpha => a

/-- Which PACK operand a channel is, counted from bit 0 of `cmd_data` (30_encoding.md R38). -/
def packSlot : Channel → Nat
  | .red => 0
  | .green => 1
  | .blue => 2
  | .alpha => 3

/-- The commands run one after another, each on the state its predecessor left, stopping where one stops
(20_memory.md R34). -/
def execAll : List Instr → State → Host.Outcome State Fault Refusal
  | [], s => .next s
  | i :: is, s =>
    match exec i s with
    | .next t => execAll is t
    | .fault r => .fault r
    | .refused r => .refused r

/-- `k` rising edges, stopping where one stops (70_reset_and_hazards.md R67). -/
def run : Nat → State → Host.Outcome State Fault Refusal
  | 0, s => .next s
  | k + 1, s =>
    match step s with
    | .next t => run k t
    | .fault r => .fault r
    | .refused r => .refused r

/-- `pix_out` as a number, whatever the format. -/
def State.readOut (s : State) : Host.Outcome Nat Fault Refusal :=
  match s.pixOut with
  | .next x => .next x.toNat
  | .fault r => .fault r
  | .refused r => .refused r

/-- The observation of the run in which the host drives `es` from the state right after reset: `PIX` after its last step. A
run in which a step is refused has none (70_reset_and_hazards.md R67). -/
def observe (f : Format) (es : List (PortSample f.DW)) : Host.Outcome Nat Fault Refusal :=
  match run es.length ((State.resetOf f).withPort es) with
  | .next s => s.readOut
  | .fault r => .fault r
  | .refused r => .refused r

end Sys2Proof.Machine
end

