-- ==== Sys2Proof/Certificates/Slice0/Obligations.lean ====
section
/-! DEFINITION. The statements for the provers, from the numbered rules of spec/ (OBLIGATIONS.json). Every one speaks of every
pixel format unless it names one: the format is a field of the state (log 1). -/

open Sys2Proof Sys2Proof.Machine

/-! ## The commands: what each does, and that it completes -/

/-- R43: NOP completes and leaves the whole state as it was, for any `cmd_data`; so does a cycle with `cmd_valid = 0`. -/
def Obligations.NopLeavesStateUnchanged : Prop :=
  ∀ (s : State) (x : Word s.fmt.W), s.fmt.wf = true → s.pix = some x →
    exec .nop s = .next s ∧
    (∀ data, sampleEdge s (.present 0b000 data) = .next s) ∧
    ∀ op data, sampleEdge s { rst := false, cmdValid := false, cmdOp := op, cmdData := data } = .next s

/-- R44: LOAD completes; bit `i` of the new `PIX` is bit `i` of the operand, for all `W` bits, padding included; nothing else
changes, higher bits of the bus are ignored and the old `PIX` is not read. -/
def Obligations.LoadStoresRawWord : Prop :=
  ∀ (s : State) (x : Word s.fmt.W), s.fmt.wf = true → s.pix = some x →
    (∀ raw, ∃ y, exec (.load raw) s = .next (s.setPix y) ∧ ∀ i, i < s.fmt.W → y.getLsbD i = raw.testBit i) ∧
    ∀ data, ∃ y, sampleEdge s (.present 0b001 data) = .next (s.setPix y) ∧
      ∀ i, i < s.fmt.W → y.getLsbD i = data.getLsbD i

/-- R45: PACK completes; every field of the new `PIX` is its operand's low bits, every padding bit is 0, nothing else changes
and the old `PIX` is not read; the word is the four-fold insertion into 0, and its four terms may be joined by addition or by
exclusive or alike. On the bus the operands stand in the order R, G, B, A from bit 0, `CW` bits each. -/
def Obligations.PackBuildsWordFromFields : Prop :=
  ∀ (s : State) (x : Word s.fmt.W), s.fmt.wf = true → s.pix = some x →
    (∀ r g b a, ∃ y, exec (.pack r g b a) s = .next (s.setPix y) ∧ PackedFrom s.fmt (packValue r g b a) y ∧
      y = insertField s.fmt (insertField s.fmt (insertField s.fmt (insertField s.fmt 0 .red r) .green g) .blue b) .alpha a ∧
      y = placed s.fmt .red r + placed s.fmt .green g + placed s.fmt .blue b + placed s.fmt .alpha a ∧
      y = placed s.fmt .red r ^^^ placed s.fmt .green g ^^^ placed s.fmt .blue b ^^^ placed s.fmt .alpha a) ∧
    ∀ data, ∃ y, sampleEdge s (.present 0b010 data) = .next (s.setPix y) ∧
      PackedFrom s.fmt (fun c => data.toNat / 2 ^ (packSlot c * s.fmt.CW) % 2 ^ s.fmt.CW) y

/-- R46 to R49: SETR, SETG, SETB and SETA complete; the named field takes the operand's low bits, every other bit of `PIX`
(other fields and padding) and everything else stays. On the bus the operand is `cmd_data[CW-1:0]`. -/
def Obligations.SetCommandsReplaceOneField : Prop :=
  ∀ (s : State) (x : Word s.fmt.W), s.fmt.wf = true → s.pix = some x →
    (∀ v, (∃ y, exec (.setr v) s = .next (s.setPix y) ∧ FieldReplaced s.fmt .red v x y) ∧
      (∃ y, exec (.setg v) s = .next (s.setPix y) ∧ FieldReplaced s.fmt .green v x y) ∧
      (∃ y, exec (.setb v) s = .next (s.setPix y) ∧ FieldReplaced s.fmt .blue v x y) ∧
      (∃ y, exec (.seta v) s = .next (s.setPix y) ∧ FieldReplaced s.fmt .alpha v x y)) ∧
    ∀ p ∈ [((0b100 : OpField), Channel.red), (0b101, .green), (0b110, .blue), (0b111, .alpha)],
      ∀ data, ∃ y, sampleEdge s (.present p.1 data) = .next (s.setPix y) ∧
        FieldReplaced s.fmt p.2 (data.toNat % 2 ^ s.fmt.CW) x y

/-- R26: what each command does to the padding bits. -/
def Obligations.PaddingBitsPerCommand : Prop :=
  ∀ (s : State) (x : Word s.fmt.W), s.fmt.wf = true → s.pix = some x →
    (∀ raw, ∃ y, exec (.load raw) s = .next (s.setPix y) ∧
      y &&& paddingMask s.fmt = BitVec.ofNat s.fmt.W raw &&& paddingMask s.fmt) ∧
    (∀ r g b a, ∃ y, exec (.pack r g b a) s = .next (s.setPix y) ∧ y &&& paddingMask s.fmt = 0) ∧
    (∀ c v, ∃ y, exec (setCommand c v) s = .next (s.setPix y) ∧
      y &&& paddingMask s.fmt = x &&& paddingMask s.fmt) ∧
    ∃ y, exec .nop s = .next (s.setPix y) ∧ y &&& paddingMask s.fmt = x &&& paddingMask s.fmt

/-- 20_memory.md section 3: a command run again at once with the same operands changes nothing more. -/
def Obligations.CommandsAreIdempotent : Prop :=
  ∀ (i : Instr) (s t : State), exec i s = .next t → exec i t = .next t

/-! ## The channel laws -/

/-- R50: a set channel reads back its value, truncated to the channel's width; after the set command of a channel with a value
in its range, the channel reads that value. -/
def Obligations.SetChannelReadsBack : Prop :=
  ∀ (s : State) (x : Word s.fmt.W), s.fmt.wf = true → s.pix = some x → ∀ (c : Channel) (v : Nat),
    channelOf s.fmt (insertField s.fmt x c v) c = v &&& widthMask s.fmt c ∧
    (v < 2 ^ s.fmt.width c → ∃ y, exec (setCommand c v) s = .next (s.setPix y) ∧ channelOf s.fmt y c = v)

/-- R51: setting one channel leaves every other channel and the padding bits unchanged. -/
def Obligations.SetChannelLeavesOthers : Prop :=
  ∀ f : Format, f.wf = true → ∀ (x : Word f.W) (c : Channel) (v : Nat),
    (∀ d, d ≠ c → channelOf f (insertField f x c v) d = channelOf f x d) ∧
    insertField f x c v &&& paddingMask f = x &&& paddingMask f

/-- R52: a zero-width channel reads 0 and every write to it is a no-op. -/
def Obligations.ZeroWidthChannelIsInert : Prop :=
  ∀ (f : Format) (c : Channel), f.width c = 0 → ∀ (x : Word f.W) (v : Nat),
    channelOf f x c = 0 ∧ insertField f x c v = x

/-- 41_channel_set.md section 2, the further identities 1, 2, 3 and 5. -/
def Obligations.FurtherChannelIdentities : Prop :=
  ∀ f : Format, f.wf = true → ∀ (x : Word f.W) (c : Channel) (v u : Nat),
    insertField f (insertField f x c v) c u = insertField f x c u ∧
    (∀ d, d ≠ c → insertField f (insertField f x c v) d u = insertField f (insertField f x d u) c v) ∧
    insertField f x c (channelOf f x c) = x ∧
    channelOf f x c ≤ 2 ^ f.width c - 1

/-- 41_channel_set.md section 2, identity 4: CLEAR and then the four sets in any order, run on the port, leave the same state
as one PACK, which reads back its four operands. -/
def Obligations.SetsInAnyOrderEqualPack : Prop :=
  ∀ (s : State) (x : Word s.fmt.W), s.fmt.wf = true → s.pix = some x →
    ∀ (r g b a : Nat) (sets : List Instr), sets.Perm [.setr r, .setg g, .setb b, .seta a] →
      ∃ y : Word s.fmt.W,
        run 5 (s.withPort (((Instr.load 0 :: sets).map (PortSample.command s.fmt)) ++ s.port)) = .next (s.setPix y) ∧
        exec (.pack r g b a) s = .next (s.setPix y) ∧
        (∀ c, channelOf s.fmt y c = packValue r g b a c &&& widthMask s.fmt c) ∧
        y &&& paddingMask s.fmt = 0

/-- R15: `ChannelOf` reads the bits of the field, moved to bit 0; so it lies in `[0, 2^w_c - 1]`, and is 0 for an empty
field. -/
def Obligations.ChannelOfReadsTheField : Prop :=
  ∀ f : Format, f.wf = true → ∀ (x : Word f.W) (c : Channel),
    (∀ i, (channelOf f x c).testBit i = (decide (i < f.width c) && x.getLsbD (f.offset c + i))) ∧
    channelOf f x c ≤ 2 ^ f.width c - 1 ∧ (f.width c = 0 → channelOf f x c = 0)

/-- 00_scope.md section 4: the four field masks and the padding mask divide the word among them, no bit missing and none
shared. -/
def Obligations.MasksPartitionTheWord : Prop :=
  ∀ f : Format, f.wf = true →
    fieldMask f .red ||| fieldMask f .green ||| fieldMask f .blue ||| fieldMask f .alpha ||| paddingMask f =
      BitVec.allOnes f.W ∧
    (∀ c d, c ≠ d → fieldMask f c &&& fieldMask f d = 0) ∧
    ∀ c, fieldMask f c &&& paddingMask f = 0

/-! ## Encoding -/

/-- R36, R42: decoding the command word of a well-formed command gives the command back, for every format. -/
def Obligations.DecodeOfEncode : Prop :=
  ∀ (f : Format) (i : Instr), i.wf f = true → decodeWord f (encode f i) = .ok i

/-- 30_encoding.md sections 1 and 2: what the decoder gives is a command the assembler could write, under the opcode it
was read from. -/
def Obligations.DecodedCommandIsWellFormed : Prop :=
  ∀ (f : Format) (op : OpField) (data : BitVec f.DW) (i : Instr), decode f op data = .ok i →
    i.wf f = true ∧ opcode i = op

/-- R38, R39: every value of `cmd_op` selects the command of the opcode map, `011` none; every operand is the unsigned field
of `cmd_data` that the rule's table names; every other bit is ignored. -/
def Obligations.OpcodeMapAndOperands : Prop :=
  ∀ (f : Format) (data : BitVec f.DW),
    decode f 0b000 data = .ok .nop ∧
    decode f 0b001 data = .ok (.load (data.toNat % 2 ^ f.W)) ∧
    decode f 0b010 data = .ok (.pack (data.toNat % 2 ^ f.CW) (data.toNat / 2 ^ f.CW % 2 ^ f.CW)
      (data.toNat / 2 ^ (2 * f.CW) % 2 ^ f.CW) (data.toNat / 2 ^ (3 * f.CW) % 2 ^ f.CW)) ∧
    decode f 0b011 data = .error .reservedOpcode ∧
    decode f 0b100 data = .ok (.setr (data.toNat % 2 ^ f.CW)) ∧
    decode f 0b101 data = .ok (.setg (data.toNat % 2 ^ f.CW)) ∧
    decode f 0b110 data = .ok (.setb (data.toNat % 2 ^ f.CW)) ∧
    decode f 0b111 data = .ok (.seta (data.toNat % 2 ^ f.CW))

/-- R41: `cmd_valid = 0` presents no command whatever the other ports hold and has the effect of NOP; `011` is the only value
of `cmd_op` that is no command, and every value of `cmd_data` is a legal operand. -/
def Obligations.OnlyReservedOpcodeIsNoCommand : Prop :=
  (∀ (s : State) (x : Word s.fmt.W), s.fmt.wf = true → s.pix = some x → ∀ op data,
    sampleEdge s { rst := false, cmdValid := false, cmdOp := op, cmdData := data } = exec .nop s) ∧
  ∀ (f : Format) (op : OpField) (data : BitVec f.DW), (∃ i, decode f op data = .ok i) ↔ op ≠ 0b011

/-- Command words of 95_test_vectors.md decode to the commands they are listed for. -/
def Obligations.ListedWordsDecode : Prop :=
  decodeWord Format.rgba8888 0x278563412 = .ok (.pack 0x12 0x34 0x56 0x78) ∧
  decodeWord Format.rgba8888 0x5000000FF = .ok (.setg 0xFF) ∧
  decodeWord Format.rgba5551 0x1ABCD1234 = .ok (.load 0x1234) ∧
  decodeWord Format.rgb565 0x7000000AB = .ok (.seta 0xAB) ∧
  decodeWord Format.rgb565 0x400000022 = .ok (.setr 0x22) ∧
  decodeWord Format.rgb888x 0x600000011 = .ok (.setb 0x11) ∧
  decodeWord Format.rgb565 0x0FFFFFFFF = .ok .nop ∧
  decodeWord Format.rgb565 0x300000000 = .error .reservedOpcode

/-- 30_encoding.md section 4: an assembled line presents its command, pseudo-commands expanded; an operand that does not fit
is refused; RESET asserts `rst` and presents no command. -/
def Obligations.AssembledLinePresentsItsCommand : Prop :=
  ∀ f : Format,
    (∀ (l : AsmLine) (i : Instr), l.expand = some i →
      (i.wf f = true → ∃ e, assembleLine f l = .ok e ∧ e.rst = false ∧ e.cmdValid = true ∧
        decode f e.cmdOp e.cmdData = .ok i) ∧
      (i.wf f = false → assembleLine f l = .error .operandTooWide)) ∧
    AsmLine.clear.expand = some (.load 0) ∧
    (∀ v, (AsmLine.set .red v).expand = some (.setr v) ∧ (AsmLine.set .green v).expand = some (.setg v) ∧
      (AsmLine.set .blue v).expand = some (.setb v) ∧ (AsmLine.set .alpha v).expand = some (.seta v)) ∧
    ∃ e, assembleLine f .reset = .ok e ∧ e.rst = true ∧ e.cmdValid = false

/-! ## The format -/

/-- R9: for a positive `W` a format is admitted exactly when every field lies inside the word, no two fields share a bit and
every field fits the channel type; an admitted format has its four widths sum to at most `W`; any other is refused. -/
def Obligations.FormatCheckSaysWhatItMust : Prop :=
  ∀ f : Format, 0 < f.W →
    (f.wf = true ↔
      (∀ c, f.offset c + f.width c ≤ f.W) ∧
      (∀ c d, c ≠ d → ∀ i, ¬ (InField f c i ∧ InField f d i)) ∧
      ∀ c, f.width c ≤ f.CW) ∧
    (f.wf = true → f.wR + f.wG + f.wB + f.wA ≤ f.W) ∧
    (f.wf = true → elaborate f = .next (State.powerUp f)) ∧
    (f.wf = false → elaborate f = .refused .illFormedFormat)

/-- A block whose format fails the check has no step, no command and no output (derived from 00_scope.md R9's 'the model
refuses' and 60_exceptions.md section 1; that each of the three refuses is the model's choice, log 5). -/
def Obligations.IllFormedFormatHasNoBehaviour : Prop :=
  ∀ s : State, s.fmt.wf = false →
    step s = .refused .illFormedFormat ∧ s.pixOut = .refused .illFormedFormat ∧
    ∀ i, exec i s = .refused .illFormedFormat

/-- 00_scope.md section 3: the five standard formats are admitted and have the masks, padding and sizes of the table. -/
def Obligations.StandardFormatsMatchTheTable : Prop :=
  (∀ f ∈ Format.standard, f.wf = true ∧ f.DW = 32) ∧
  Format.standard.map (fun f => [f.W, (fieldMask f .red).toNat, (fieldMask f .green).toNat, (fieldMask f .blue).toNat,
      (fieldMask f .alpha).toNat, (paddingMask f).toNat, f.bitsPerPixel, f.bytesPerPixel]) =
    [[32, 0x000000FF, 0x0000FF00, 0x00FF0000, 0xFF000000, 0, 32, 4],
     [16, 0x000F, 0x00F0, 0x0F00, 0xF000, 0, 16, 2],
     [16, 0x001F, 0x03E0, 0x7C00, 0x8000, 0, 16, 2],
     [32, 0x000000FF, 0x0000FF00, 0x00FF0000, 0, 0xFF000000, 24, 3],
     [16, 0x001F, 0x07E0, 0xF800, 0, 0, 16, 2]]

/-! ## Reset, the port, and runs -/

/-- R62, R56: at an edge with `rst = 1`, `PIX` becomes 0 whatever `PIX` held and whatever the other ports hold, even the reserved
opcode, and nothing else changes but that the edge has passed. -/
def Obligations.ResetClearsPix : Prop :=
  ∀ (s : State) (valid : Bool) (op : OpField) (data : BitVec s.fmt.DW) (es : List (PortSample s.fmt.DW)),
    s.fmt.wf = true → s.port = { rst := true, cmdValid := valid, cmdOp := op, cmdData := data } :: es →
    step s = .next { fmt := s.fmt, pix := some 0, port := es }

/-- R27: right after reset `PIX` is 0 and `pix_out` reads 0; elaboration leaves `PIX` without a value; and in every state before
the first reset, whatever the host is still to drive, a read of `pix_out` faults. -/
def Obligations.PixOutAroundFirstReset : Prop :=
  (∀ f : Format, f.wf = true → (State.resetOf f).pix = some 0 ∧ (State.resetOf f).pixOut = .next 0) ∧
  (∀ (f : Format) (s : State), elaborate f = .next s → s.fmt.wf = true ∧ s.pix = none) ∧
  ∀ s : State, s.fmt.wf = true → s.pix = none → s.pixOut = .fault .pixOutReadBeforeReset

/-- 70_reset_and_hazards.md section 2: elaboration and one edge with `rst = 1` lead to the state every run starts from. -/
def Obligations.BootLeadsToResetState : Prop :=
  ∀ (f : Format) (e : PortSample f.DW), f.wf = true → e.rst = true →
    step ((State.powerUp f).withPort [e]) = .next (State.resetOf f)

/-- R24: in a running block `pix_out` reads `PIX`, now and after every step. -/
def Obligations.PixOutFollowsPix : Prop :=
  ∀ s : State, s.Running →
    (∃ x, s.pix = some x ∧ s.pixOut = .next x) ∧
    ∀ t, step s = .next t → ∃ y, t.pix = some y ∧ t.pixOut = .next y

/-- The model's choice of log 4, from 70_reset_and_hazards.md sections 2 and 3: before the first reset every command is
refused, and an edge with neither reset nor command leaves the block as it is. -/
def Obligations.CommandBeforeResetIsRefused : Prop :=
  ∀ s : State, s.fmt.wf = true → s.pix = none →
    (∀ i, exec i s = .refused .commandBeforeReset) ∧
    ∀ op data, sampleEdge s { rst := false, cmdValid := false, cmdOp := op, cmdData := data } = .next s

/-- R40: the step that meets a presented `cmd_op = 011` is refused. -/
def Obligations.ReservedOpcodeIsRefused : Prop :=
  ∀ (s : State) (data : BitVec s.fmt.DW) (es : List (PortSample s.fmt.DW)), s.fmt.wf = true →
    s.port = .present 0b011 data :: es → step s = .refused (.undecodable .reservedOpcode)

/-- A step runs the presented command: where the next sample presents bits that decode to `i`, the step is `exec i` on the
state with that sample consumed. -/
def Obligations.StepRunsPresentedCommand : Prop :=
  ∀ (s : State) (e : PortSample s.fmt.DW) (es : List (PortSample s.fmt.DW)) (i : Instr),
    s.fmt.wf = true → s.port = e :: es → e.rst = false → e.cmdValid = true →
    decode s.fmt e.cmdOp e.cmdData = .ok i → step s = exec i (s.withPort es)

/-- A step whose sample presents no command, or that has no sample left, changes nothing but that the sample is consumed
(10_state.md R25; that the host presents nothing after its last sample is the model's choice, log 2). -/
def Obligations.IdleStepChangesNothing : Prop :=
  ∀ s : State, s.fmt.wf = true →
    (∀ e es, s.port = e :: es → e.rst = false → e.cmdValid = false → step s = .next (s.withPort es)) ∧
    (s.port = [] → step s = .next s)

/-- The interface's own way to place a word: the very next step runs the command the word decodes to (log 2). -/
def Obligations.PlacedWordRunsNext : Prop :=
  ∀ (s : State) (nbits w : Nat) (i : Instr), s.fmt.wf = true →
    decodeWord s.fmt (w % 2 ^ nbits) = .ok i → step (s.withFetchWord nbits w) = exec i s

/-- 60_exceptions.md section 1: no command and no step raises an exception. -/
def Obligations.NothingEverFaults : Prop :=
  ∀ s : State, (∀ r, step s ≠ .fault r) ∧ ∀ i r, exec i s ≠ .fault r

/-- The frame of every step: the format never changes and the host's samples are only consumed, so `PIX` is all that a step
can change. -/
def Obligations.StepChangesOnlyPix : Prop :=
  ∀ s t : State, step s = .next t → ∃ p, t = { fmt := s.fmt, pix := p, port := s.port.tail }

/-- From the first reset on the block keeps running: the format stays admitted and `PIX` keeps holding a value. -/
def Obligations.StepKeepsRunning : Prop :=
  ∀ s t : State, s.Running → step s = .next t → t.Running

/-- While the host presents no LOAD, every step keeps the padding bits of `PIX` clear. -/
def Obligations.PaddingStaysClearWithoutLoad : Prop :=
  ∀ s t : State, s.fmt.wf = true → s.PaddingClear → (∀ e ∈ s.port, e.presentsLoad = false) → step s = .next t →
    t.fmt.wf = true ∧ t.PaddingClear ∧ ∀ e ∈ t.port, e.presentsLoad = false

/-- The state right after reset has clear padding, whatever the format. -/
def Obligations.ResetHasClearPadding : Prop :=
  ∀ f : Format, (State.resetOf f).PaddingClear

/-- A reset edge erases what came before: from then on two blocks of one format that held different words behave alike. -/
def Obligations.ResetErasesHistory : Prop :=
  ∀ (f : Format) (p q : Option (Word f.W)) (e : PortSample f.DW) (es : List (PortSample f.DW)) (k : Nat), e.rst = true →
    run (k + 1) { fmt := f, pix := p, port := e :: es } = run (k + 1) { fmt := f, pix := q, port := e :: es }

/-- Commands presented back to back on the port do what the commands do one after another, from any state. That the states it
includes before the first reset and with an ill-formed format refuse every command, on the port and off it alike, is the
model's choice (logs 4 and 5). -/
def Obligations.PortRunIsTheCommandSequence : Prop :=
  ∀ (is : List Instr) (s : State), (∀ i ∈ is, i.wf s.fmt = true) →
    run is.length (s.withPort (is.map (PortSample.command s.fmt))) = execAll is (s.withPort [])

/-- 70_reset_and_hazards.md section 6: a run has an observation exactly when no step of it meets the reserved opcode; the
observation is then a `W`-bit word. That `011` at an edge with `rst = 1` meets no refusal is the model's reading (log 11), and
so is that every rising edge, idle ones too, is a step of the run (log 12). -/
def Obligations.RunIsObservedUnlessReserved : Prop :=
  ∀ f : Format, f.wf = true → ∀ es : List (PortSample f.DW),
    ((∃ n, observe f es = .next n) ↔ ∀ e ∈ es, e.presentsReserved = false) ∧
    ∀ n, observe f es = .next n → n < 2 ^ f.W

/-- Progress: a running block whose next sample, if there is one, does not present `011` without reset completes its step and
is still running. That `011` with `rst = 1` is no refusal is the model's reading (log 11), and so is that idle edges, also
after the host's last sample, are steps (logs 2 and 12). -/
def Obligations.RunningStepCompletesUnlessReserved : Prop :=
  ∀ s : State, s.Running → (∀ e es, s.port = e :: es → e.presentsReserved = false) →
    ∃ t, step s = .next t ∧ t.Running

/-- 20_memory.md section 2: bit `j` of byte `k` of a serialised word is bit `8k + j` of the word, and the two byte orders are
each other's reverse; that a `W` of no whole number of bytes rounds up is the model's choice (log 9). -/
def Obligations.SerialisedBytesHoldTheWord : Prop :=
  ∀ (W : Nat) (x : Word W),
    (storageBytes .little x).length = (W + 7) / 8 ∧
    (∀ (k : Nat) (byte : BitVec 8), (storageBytes .little x)[k]? = some byte →
      ∀ j, j < 8 → byte.getLsbD j = x.getLsbD (8 * k + j)) ∧
    storageBytes .big x = (storageBytes .little x).reverse
end

