-- ==== Sys2Proof/Laws/Format.lean ====
section
/-! SUPPORT. What the format check gives, channel by channel, and the operand bus's two bounds. -/

namespace Sys2Proof

theorem Channel.mem_all (c : Channel) : c ∈ Channel.all := by cases c <;> decide

theorem Format.W_le_DW (f : Format) : f.W ≤ f.DW := Nat.le_max_left ..

theorem Format.four_CW_le_DW (f : Format) : 4 * f.CW ≤ f.DW := Nat.le_max_right ..

theorem Format.fits_of_wf {f : Format} (h : f.wf = true) (c : Channel) : f.offset c + f.width c ≤ f.W := by
  simp only [Format.wf, Bool.and_eq_true] at h
  simpa using List.all_eq_true.mp h.1.1.2 c c.mem_all

theorem Format.width_le_CW_of_wf {f : Format} (h : f.wf = true) (c : Channel) : f.width c ≤ f.CW := by
  simp only [Format.wf, Bool.and_eq_true] at h
  simpa using List.all_eq_true.mp h.2 c c.mem_all

theorem Format.apart_of_wf {f : Format} (h : f.wf = true) {c d : Channel} (hcd : c ≠ d) : f.apart c d = true := by
  simp only [Format.wf, Bool.and_eq_true] at h
  have := List.all_eq_true.mp (List.all_eq_true.mp h.1.2 c c.mem_all) d d.mem_all
  simpa [hcd] using this

end Sys2Proof
end

