-- ==== Sys2Proof/Laws/Decode.lean ====
section
/-! SUPPORT. Operand assembly in numbers: each operand function said once as a quotient and a remainder. -/

namespace Sys2Proof

theorem rawOperand_eq (f : Format) (data : BitVec f.DW) : rawOperand f data = data.toNat % 2 ^ f.W := by
  simp [rawOperand, BitVec.extractLsb'_toNat]

theorem channelOperand_eq (f : Format) (k : Nat) (data : BitVec f.DW) :
    channelOperand f k data = data.toNat / 2 ^ (k * f.CW) % 2 ^ f.CW := by
  simp [channelOperand, BitVec.extractLsb'_toNat, Nat.shiftRight_eq_div_pow]

theorem rawOperand_lt (f : Format) (data : BitVec f.DW) : rawOperand f data < 2 ^ f.W := BitVec.isLt _

theorem channelOperand_lt (f : Format) (k : Nat) (data : BitVec f.DW) : channelOperand f k data < 2 ^ f.CW :=
  BitVec.isLt _

/-- A command word splits into the opcode and the bus it was joined from. -/
theorem wordOp_join (f : Format) (op : OpField) (data : BitVec f.DW) :
    wordOp f (op.toNat * 2 ^ f.DW + data.toNat) = op := by
  have : (op.toNat * 2 ^ f.DW + data.toNat) / 2 ^ f.DW = op.toNat := by
    rw [Nat.mul_comm, Nat.mul_add_div (Nat.two_pow_pos _), Nat.div_eq_of_lt data.isLt, Nat.add_zero]
  simp [wordOp, this]

theorem wordData_join (f : Format) (op : OpField) (data : BitVec f.DW) :
    wordData f (op.toNat * 2 ^ f.DW + data.toNat) = data := by
  apply BitVec.eq_of_toNat_eq
  simp [wordData, Nat.mod_eq_of_lt data.isLt]

theorem joined_lt (f : Format) (op : OpField) (data : BitVec f.DW) :
    op.toNat * 2 ^ f.DW + data.toNat < 2 ^ (f.DW + 3) := by
  have h1 := op.isLt
  have h2 := data.isLt
  have : (op.toNat + 1) * 2 ^ f.DW ≤ 8 * 2 ^ f.DW := Nat.mul_le_mul_right _ (by omega)
  rw [Nat.add_mul, Nat.one_mul] at this
  rw [Nat.pow_add]
  omega

/-- A word joined from an opcode and a bus decodes as the pair does. -/
theorem decodeWord_join (f : Format) (op : OpField) (data : BitVec f.DW) :
    decodeWord f (op.toNat * 2 ^ f.DW + data.toNat) = decode f op data := by
  simp [decodeWord, joined_lt, wordOp_join, wordData_join]

end Sys2Proof
end

