-- ==== Sys2Proof/Laws/Fields.lean ====
section
/-! SUPPORT. The bits of the field operations: each of masks, placing and inserting said once, bit by bit. -/

namespace Sys2Proof

theorem testBit_widthMask (f : Format) (c : Channel) (i : Nat) :
    (widthMask f c).testBit i = decide (i < f.width c) := by
  simp [widthMask, Nat.testBit_two_pow_sub_one]

theorem getLsbD_fieldMask (f : Format) (c : Channel) (i : Nat) :
    (fieldMask f c).getLsbD i =
      (decide (i < f.W) && decide (f.offset c ≤ i) && decide (i < f.offset c + f.width c)) := by
  by_cases h : f.offset c ≤ i
  · have : (i - f.offset c < f.width c) = (i < f.offset c + f.width c) := by
      rw [Nat.sub_lt_iff_lt_add h, Nat.add_comm]
    simp [fieldMask, BitVec.getLsbD_ofNat, Nat.testBit_shiftLeft, testBit_widthMask, h, this]
  · simp [fieldMask, BitVec.getLsbD_ofNat, Nat.testBit_shiftLeft, h]

theorem getLsbD_placed (f : Format) (c : Channel) (v i : Nat) :
    (placed f c v).getLsbD i = ((fieldMask f c).getLsbD i && v.testBit (i - f.offset c)) := by
  by_cases h : f.offset c ≤ i
  · have : (i - f.offset c < f.width c) = (i < f.offset c + f.width c) := by
      rw [Nat.sub_lt_iff_lt_add h, Nat.add_comm]
    simp [placed, getLsbD_fieldMask, BitVec.getLsbD_ofNat, Nat.testBit_shiftLeft, testBit_widthMask, h, this]
    cases decide (i < f.W) <;> simp [Bool.and_comm]
  · simp [placed, getLsbD_fieldMask, BitVec.getLsbD_ofNat, Nat.testBit_shiftLeft, h]

/-- Inside the field the new word has the operand's bits, outside it the old word's. -/
theorem getLsbD_insertField (f : Format) (x : Word f.W) (c : Channel) (v i : Nat) :
    (insertField f x c v).getLsbD i =
      if (fieldMask f c).getLsbD i then v.testBit (i - f.offset c) else x.getLsbD i := by
  simp only [insertField, BitVec.getLsbD_or, BitVec.getLsbD_and, BitVec.getLsbD_not, getLsbD_placed]
  by_cases hi : i < f.W
  · cases (fieldMask f c).getLsbD i <;> simp [hi]
  · simp [getLsbD_fieldMask, hi, BitVec.getLsbD_of_ge x i (Nat.le_of_not_lt hi)]

theorem getLsbD_paddingMask (f : Format) (i : Nat) :
    (paddingMask f).getLsbD i =
      (decide (i < f.W) && !((fieldMask f .red).getLsbD i || (fieldMask f .green).getLsbD i ||
        (fieldMask f .blue).getLsbD i || (fieldMask f .alpha).getLsbD i)) := by
  simp only [paddingMask, BitVec.getLsbD_or, BitVec.getLsbD_and, BitVec.getLsbD_not, BitVec.getLsbD_allOnes]
  cases decide (i < f.W) <;> simp

/-- In an admitted format no bit belongs to two channels. -/
theorem fieldMask_disjoint {f : Format} (h : f.wf = true) {c d : Channel} (hcd : c ≠ d) (i : Nat)
    (hc : (fieldMask f c).getLsbD i = true) : (fieldMask f d).getLsbD i = false := by
  have ha := Format.apart_of_wf h hcd
  simp only [getLsbD_fieldMask, Bool.and_eq_true, decide_eq_true_eq] at hc
  simp only [Format.apart, Bool.or_eq_true, decide_eq_true_eq] at ha
  simp only [getLsbD_fieldMask, Bool.and_eq_false_iff, decide_eq_false_iff_not]
  omega

theorem testBit_channelOf (f : Format) (x : Word f.W) (c : Channel) (i : Nat) :
    (channelOf f x c).testBit i =
      (x.getLsbD (f.offset c + i) && (fieldMask f c).getLsbD (f.offset c + i)) := by
  simp [channelOf, Nat.testBit_shiftRight, BitVec.testBit_toNat]

end Sys2Proof
end

