-- ==== Sys2Proof/Laws/State.lean ====
section
/-! SUPPORT. One lemma per field per update of the state and of a port sample. -/

namespace Sys2Proof.Machine

@[simp] theorem State.setPix_fmt (s : State) (x : Word s.fmt.W) : (s.setPix x).fmt = s.fmt := rfl
@[simp] theorem State.setPix_pix (s : State) (x : Word s.fmt.W) : (s.setPix x).pix = some x := rfl
@[simp] theorem State.setPix_port (s : State) (x : Word s.fmt.W) : (s.setPix x).port = s.port := rfl
@[simp] theorem State.setPix_setPix (s : State) (x y : Word s.fmt.W) : (s.setPix x).setPix y = s.setPix y := rfl

@[simp] theorem State.withPort_fmt (s : State) (es : List (PortSample s.fmt.DW)) : (s.withPort es).fmt = s.fmt := rfl
@[simp] theorem State.withPort_pix (s : State) (es : List (PortSample s.fmt.DW)) : (s.withPort es).pix = s.pix := rfl
@[simp] theorem State.withPort_port (s : State) (es : List (PortSample s.fmt.DW)) : (s.withPort es).port = es := rfl
@[simp] theorem State.withPort_self (s : State) : s.withPort s.port = s := rfl
@[simp] theorem State.withPort_withPort (s : State) (es fs : List (PortSample s.fmt.DW)) :
    (s.withPort es).withPort fs = s.withPort fs := rfl

@[simp] theorem State.applyReset_fmt (s : State) : s.applyReset.fmt = s.fmt := rfl
@[simp] theorem State.applyReset_pix (s : State) : s.applyReset.pix = some 0 := rfl
@[simp] theorem State.applyReset_port (s : State) : s.applyReset.port = s.port := rfl

@[simp] theorem State.presentWord_fmt (s : State) (cmd : Nat) : (s.presentWord cmd).fmt = s.fmt := rfl
@[simp] theorem State.presentWord_pix (s : State) (cmd : Nat) : (s.presentWord cmd).pix = s.pix := rfl
@[simp] theorem State.presentWord_port (s : State) (cmd : Nat) :
    (s.presentWord cmd).port = .present (wordOp s.fmt cmd) (wordData s.fmt cmd) :: s.port := rfl

@[simp] theorem State.powerUp_fmt (f : Format) : (State.powerUp f).fmt = f := rfl
@[simp] theorem State.powerUp_pix (f : Format) : (State.powerUp f).pix = none := rfl
@[simp] theorem State.powerUp_port (f : Format) : (State.powerUp f).port = [] := rfl

@[simp] theorem State.resetOf_fmt (f : Format) : (State.resetOf f).fmt = f := rfl
@[simp] theorem State.resetOf_pix (f : Format) : (State.resetOf f).pix = some 0 := rfl
@[simp] theorem State.resetOf_port (f : Format) : (State.resetOf f).port = [] := rfl

@[simp] theorem PortSample.present_rst {DW : Nat} (op : OpField) (data : BitVec DW) :
    (PortSample.present op data).rst = false := rfl
@[simp] theorem PortSample.present_cmdValid {DW : Nat} (op : OpField) (data : BitVec DW) :
    (PortSample.present op data).cmdValid = true := rfl
@[simp] theorem PortSample.present_cmdOp {DW : Nat} (op : OpField) (data : BitVec DW) :
    (PortSample.present op data).cmdOp = op := rfl
@[simp] theorem PortSample.present_cmdData {DW : Nat} (op : OpField) (data : BitVec DW) :
    (PortSample.present op data).cmdData = data := rfl

@[simp] theorem PortSample.command_rst (f : Format) (i : Instr) : (PortSample.command f i).rst = false := rfl
@[simp] theorem PortSample.command_cmdValid (f : Format) (i : Instr) : (PortSample.command f i).cmdValid = true := rfl
@[simp] theorem PortSample.command_cmdOp (f : Format) (i : Instr) : (PortSample.command f i).cmdOp = opcode i := rfl
@[simp] theorem PortSample.command_cmdData (f : Format) (i : Instr) :
    (PortSample.command f i).cmdData = operandBus f i := rfl

end Sys2Proof.Machine
end

