-- ==== Sys2Proof/Laws/Ops.lean ====
section
/-! SUPPORT. Said once what each shared operation can do; proofs about `exec` and `step` cite these. -/

namespace Sys2Proof.Machine

/-- Everything `commit` can do when it answers a next state. -/
theorem State.commit_next {s t : State} {g : Word s.fmt.W → Word s.fmt.W} (h : s.commit g = .next t) :
    s.fmt.wf = true ∧ ∃ x, s.pix = some x ∧ t = s.setPix (g x) := by
  unfold State.commit at h
  split at h
  · rename_i hwf
    split at h
    · rename_i x hx
      exact ⟨hwf, x, hx, by cases h; rfl⟩
    · cases h
  · cases h

/-- After the first reset `commit` writes the word it computes. -/
theorem State.commit_running {s : State} {x : Word s.fmt.W} (hwf : s.fmt.wf = true) (hx : s.pix = some x)
    (g : Word s.fmt.W → Word s.fmt.W) : s.commit g = .next (s.setPix (g x)) := by
  simp [State.commit, hwf, hx]

theorem State.commit_ne_fault (s : State) (g : Word s.fmt.W → Word s.fmt.W) (r : Fault) : s.commit g ≠ .fault r := by
  unfold State.commit
  split
  · split <;> simp
  · simp

/-- Everything a read of `pix_out` can answer when it answers a word. -/
theorem State.pixOut_next {s : State} {x : Word s.fmt.W} (h : s.pixOut = .next x) :
    s.fmt.wf = true ∧ s.pix = some x := by
  unfold State.pixOut at h
  split at h
  · rename_i hwf
    split at h
    · rename_i y hy
      cases h
      exact ⟨hwf, hy⟩
    · cases h
  · cases h

/-- Every meaning is one `commit`. -/
theorem exec_eq_commit (i : Instr) (s : State) : ∃ g, exec i s = s.commit g := by
  cases i <;> exact ⟨_, rfl⟩

/-- What a command can do: it writes `PIX` and nothing else. -/
theorem exec_next {i : Instr} {s t : State} (h : exec i s = .next t) :
    s.fmt.wf = true ∧ ∃ x y, s.pix = some x ∧ t = s.setPix y := by
  obtain ⟨g, hg⟩ := exec_eq_commit i s
  obtain ⟨hwf, x, hx, ht⟩ := State.commit_next (hg ▸ h)
  exact ⟨hwf, x, g x, hx, ht⟩

/-- The word a command leaves in `PIX`, from the word it found there. -/
def effect (f : Format) (i : Instr) (x : Word f.W) : Word f.W :=
  match i with
  | .nop => x
  | .load raw => BitVec.ofNat f.W raw
  | .pack r g b a => packWord f r g b a
  | .setr v => insertField f x .red v
  | .setg v => insertField f x .green v
  | .setb v => insertField f x .blue v
  | .seta v => insertField f x .alpha v

/-- A command on a running block, with the state written out: only `PIX` changes, to the command's effect. -/
theorem exec_mk {f : Format} (hwf : f.wf = true) (i : Instr) (x : Word f.W) (es : List (PortSample f.DW)) :
    exec i { fmt := f, pix := some x, port := es } = .next { fmt := f, pix := some (effect f i x), port := es } := by
  cases i <;> simp [exec, execNop, execLoad, execPack, execSetr, execSetg, execSetb, execSeta, State.commit, hwf,
    State.setPix, effect]

/-- A command on a running block: only `PIX` changes, to the command's effect. -/
theorem exec_running {s : State} {x : Word s.fmt.W} (hwf : s.fmt.wf = true) (hx : s.pix = some x) (i : Instr) :
    exec i s = .next (s.setPix (effect s.fmt i x)) := by
  obtain ⟨f, p, es⟩ := s
  have key : ∀ y : Word f.W, p = some y → exec i { fmt := f, pix := p, port := es } =
      .next (State.setPix { fmt := f, pix := p, port := es } (effect f i y)) := by
    rintro y rfl
    exact exec_mk hwf i y es
  exact key x hx

/-- A rising edge with the state written out: it consumes the next sample. -/
theorem step_cons {f : Format} (hwf : f.wf = true) (p : Option (Word f.W)) (e : PortSample f.DW)
    (es : List (PortSample f.DW)) :
    step { fmt := f, pix := p, port := e :: es } = sampleEdge { fmt := f, pix := p, port := es } e := by
  simp [step, risingEdge, hwf, State.withPort]

theorem run_succ (k : Nat) (s : State) :
    run (k + 1) s =
      match step s with
      | .next t => run k t
      | .fault r => .fault r
      | .refused r => .refused r := rfl

theorem core_run_next {M : Host.Core} {s t : M.State} (k : Nat) (h : M.step s = .next t) : M.run (k + 1) s = M.run k t := by
  rw [Host.Core.run, h]

theorem core_run_fault {M : Host.Core} {s : M.State} {r : M.Fault} (k : Nat) (h : M.step s = .fault r) :
    M.run (k + 1) s = .fault r := by
  rw [Host.Core.run, h]

theorem core_run_refused {M : Host.Core} {s : M.State} {r : M.Refusal} (k : Nat) (h : M.step s = .refused r) :
    M.run (k + 1) s = .refused r := by
  rw [Host.Core.run, h]

/-- `run` is the host interface's own run of the machine. -/
theorem run_eq_core_run (k : Nat) (s : State) : run k s = Host.Core.run Sys2Proof.core k s := by
  induction k generalizing s with
  | zero => rfl
  | succ k ih =>
    cases h : step s with
    | next t => rw [run_succ, h]; exact (ih t).trans (core_run_next (M := Sys2Proof.core) k h).symm
    | fault r => rw [run_succ, h]; exact (core_run_fault (M := Sys2Proof.core) k h).symm
    | refused r => rw [run_succ, h]; exact (core_run_refused (M := Sys2Proof.core) k h).symm

/-- What an edge can do: reset, a command's effect, or nothing. -/
theorem sampleEdge_next {s t : State} {e : PortSample s.fmt.DW} (h : sampleEdge s e = .next t) :
    (e.rst = true ∧ t = s.applyReset) ∨
    (e.rst = false ∧ e.cmdValid = true ∧ ∃ i, decode s.fmt e.cmdOp e.cmdData = .ok i ∧ exec i s = .next t) ∨
    (e.rst = false ∧ e.cmdValid = false ∧ t = s) := by
  unfold sampleEdge at h
  split at h
  · rename_i hr
    exact .inl ⟨hr, by cases h; rfl⟩
  · rename_i hr
    split at h
    · rename_i hv
      split at h
      · rename_i i hi
        exact .inr (.inl ⟨by simpa using hr, hv, i, hi, h⟩)
      · cases h
    · rename_i hv
      exact .inr (.inr ⟨by simpa using hr, by simpa using hv, by cases h; rfl⟩)

/-- What a rising edge can do: with no sample left nothing, else what its sample does. -/
theorem risingEdge_next {s t : State} (h : risingEdge s = .next t) :
    s.fmt.wf = true ∧ ((s.port = [] ∧ t = s) ∨ ∃ e es, s.port = e :: es ∧ sampleEdge (s.withPort es) e = .next t) := by
  unfold risingEdge at h
  split at h
  · rename_i hwf
    split at h
    · rename_i hp
      exact ⟨hwf, .inl ⟨hp, by cases h; rfl⟩⟩
    · rename_i e es hp
      exact ⟨hwf, .inr ⟨e, es, hp, h⟩⟩
  · cases h

end Sys2Proof.Machine
end

