-- ==== Sys2Proof/Laws/PerInstr.lean ====
section
/-! SUPPORT. Statements about every command as syntax, one lemma per constructor (LAWS.json). -/

namespace Sys2Proof.Laws.DecodesUnderItsOpcode

/-- Whatever the bus holds, the opcode of `i` decodes to a command of that same opcode (30_encoding.md R39, R41). -/
def Statement (i : Instr) : Prop :=
  ∀ (f : Format) (data : BitVec f.DW), ∃ j, decode f (opcode i) data = .ok j ∧ opcode j = opcode i

theorem nop : Statement .nop := fun _ _ => ⟨_, rfl, rfl⟩
theorem load (raw : Nat) : Statement (.load raw) := fun _ _ => ⟨_, rfl, rfl⟩
theorem pack (r g b a : Nat) : Statement (.pack r g b a) := fun _ _ => ⟨_, rfl, rfl⟩
theorem setr (v : Nat) : Statement (.setr v) := fun _ _ => ⟨_, rfl, rfl⟩
theorem setg (v : Nat) : Statement (.setg v) := fun _ _ => ⟨_, rfl, rfl⟩
theorem setb (v : Nat) : Statement (.setb v) := fun _ _ => ⟨_, rfl, rfl⟩
theorem seta (v : Nat) : Statement (.seta v) := fun _ _ => ⟨_, rfl, rfl⟩

end Sys2Proof.Laws.DecodesUnderItsOpcode
end

