-- ==== Sys2Proof/Tests/Slice0.lean ====
section
/-! SUPPORT. Small checks. Expected values come from spec/95_test_vectors.md and from the encodings of spec/30_encoding.md, never
from the model; and for every obligation with hypotheses a concrete state and operands that meet them. -/

namespace Sys2Proof.Machine.Tests

/-! ## Well-formedness: one ill-formed term for each check -/

theorem test_load_operand_of_W_bits_passes : Instr.wf .rgb565 (.load 0xFFFF) = true := by decide
theorem test_load_operand_too_wide_refused : Instr.wf .rgb565 (.load 0x10000) = false := by decide
theorem test_pack_each_operand_checked :
    [Instr.pack 256 0 0 0, .pack 0 256 0 0, .pack 0 0 256 0, .pack 0 0 0 256].map (Instr.wf .rgba8888) =
      [false, false, false, false] := by decide
theorem test_set_operand_too_wide_refused :
    [Instr.setr 256, .setg 256, .setb 256, .seta 256].map (Instr.wf .rgba8888) = [false, false, false, false] := by decide

/-- 95_test_vectors.md 2.6, admitted rows. -/
theorem test_formats_admitted :
    [Format.rgba8888, Format.rgb565, Format.mk 32 16 10 10 10 2 0 10 20 30, Format.mk 16 8 0 0 0 0 0 0 0 0].map
      Format.wf = [true, true, true, true] := by decide
/-- 95_test_vectors.md 2.6: alpha outside the word (R9 condition 1). -/
theorem test_format_field_outside_word_refused : (Format.mk 32 8 8 8 8 8 0 8 16 28).fits = false := by decide
/-- 95_test_vectors.md 2.6: red and green share bit 4 (R9 condition 2). -/
theorem test_format_overlap_refused : (Format.mk 16 8 5 6 5 0 0 4 11 16).noOverlap = false := by decide
/-- 95_test_vectors.md 2.6: a channel wider than its type (R9 condition 3). -/
theorem test_format_wide_channel_refused : (Format.mk 32 8 10 10 10 2 0 10 20 30).channelsFit = false := by decide
theorem test_refused_formats_are_not_wf :
    [Format.mk 32 8 8 8 8 8 0 8 16 28, Format.mk 16 8 5 6 5 0 0 4 11 16, Format.mk 32 8 10 10 10 2 0 10 20 30,
      Format.mk 0 8 0 0 0 0 0 0 0 0].map Format.wf = [false, false, false, false] := by decide

/-! ## Decoding: each command's word written out from opcode_table.json's pattern -/

theorem test_decode_nop :
    decodeTableWord 40 0b00011111111111111111111111111111111 = some .nop := by decide
theorem test_decode_load :
    decodeTableWord 40 0b00111011110101011011011111011101111 = some (.load 0xDEADBEEF) := by decide
theorem test_decode_pack :
    decodeTableWord 40 0b01001111000010101100011010000010010 = some (.pack 0x12 0x34 0x56 0x78) := by decide
theorem test_decode_setr :
    decodeTableWord 40 0b10000000000000000000000000000100101 = some (.setr 0x25) := by decide
theorem test_decode_setg :
    decodeTableWord 40 0b10111111111111111111111111000011010 = some (.setg 0x1A) := by decide
theorem test_decode_setb :
    decodeTableWord 40 0b11000000000000000000000000000010001 = some (.setb 0x11) := by decide
theorem test_decode_seta :
    decodeTableWord 40 0b11100000000000000000000000011111111 = some (.seta 0xFF) := by decide
theorem test_decode_reserved_refused :
    decodeTableWord 40 0b01100000000000000000000000000000000 = none := by decide
theorem test_decode_word_too_wide_refused :
    decodeWord .rgba8888 (2 ^ 35) = .error .wordTooWide := by decide
/-- With `W = 32` and `CW = 16` the bus has 64 bits (95_test_vectors.md 2.6), and the opcode stands in bits 66:64. -/
theorem test_decode_wide_bus :
    decodeWord (Format.mk 32 16 10 10 10 2 0 10 20 30) 0x20003000200010000 = .ok (.pack 0 1 2 3) := by decide
/-- 95_test_vectors.md, programs 1 and 2. -/
theorem test_encode_listed_words :
    encode .rgba8888 (.pack 0x12 0x34 0x56 0x78) = 0x278563412 ∧ encode .rgb565 (.seta 0xAB) = 0x7000000AB := by decide

/-! ## The commands, on vectors of 95_test_vectors.md sections 2.1 to 2.4 -/

/-- A running block of format `f` whose `PIX` is `x` and whose host drives `es`. -/
def block (f : Format) (x : Nat) (es : List (PortSample f.DW)) : State :=
  { fmt := f, pix := some (BitVec.ofNat f.W x), port := es }

/-- `PIX` as a number after a step that completed. -/
def pixAfter : Host.Outcome State Fault Refusal → Option Nat
  | .next t => t.pix.map BitVec.toNat
  | _ => none

/-- `PIX` after the step on which the host presents (`op`, `data`). -/
def stepPix (f : Format) (x : Nat) (op : OpField) (data : BitVec f.DW) : Option Nat :=
  pixAfter (step (block f x [.present op data]))

theorem test_nop_ignores_data : stepPix .rgb565 0xF802 0b000 0xFFFFFFFF = some 0xF802 := by decide
theorem test_load_keeps_padding : stepPix .rgb888x 0 0b001 0xDEADBEEF = some 0xDEADBEEF := by decide
theorem test_load_ignores_high_bits : stepPix .rgba5551 0xD55F 0b001 0xABCD1234 = some 0x1234 := by decide
theorem test_pack_truncates : stepPix .rgb565 0xFFFF 0b010 0x99314725 = some 0x88E5 := by decide
theorem test_pack_clears_padding : stepPix .rgb888x 0xDE11BEEF 0b010 0xFF030201 = some 0x00030201 := by decide
theorem test_setr_truncates : stepPix .rgba5551 0xFFFF 0b100 0x25 = some 0xFFE5 := by decide
theorem test_setg_middle_field : stepPix .rgba4444 0x1234 0b101 0x1A = some 0x12A4 := by decide
theorem test_setb_keeps_padding : stepPix .rgb888x 0xDEADBEEF 0b110 0x11 = some 0xDE11BEEF := by decide
theorem test_setb_truncates_to_zero : stepPix .rgb565 0x0000 0b110 0x40 = some 0x0000 := by decide
theorem test_seta_zero_width : stepPix .rgb565 0x1234 0b111 0xFF = some 0x1234 := by decide
theorem test_seta_one_bit : stepPix .rgba5551 0x0000 0b111 0x03 = some 0x8000 := by decide

/-! ## Reset, the reserved opcode and simultaneous events, 95_test_vectors.md section 2.5 -/

theorem test_pix_out_before_reset_faults :
    (State.powerUp .rgba8888).pixOut = .fault .pixOutReadBeforeReset := rfl
theorem test_reset_from_power_up :
    step ((State.powerUp .rgba8888).withPort [.reset]) = .next State.reset := rfl
theorem test_reset_wins_over_load :
    pixAfter (step (block .rgb565 0xF802 [⟨true, true, 0b001, 0xFFFF⟩])) = some 0 := by decide
theorem test_reserved_refused :
    step (block .rgba4444 0x1234 [.present 0b011 0]) = .refused (.undecodable .reservedOpcode) := rfl
theorem test_reserved_without_valid_is_idle :
    pixAfter (step (block .rgba4444 0x1234 [⟨false, false, 0b011, 0⟩])) = some 0x1234 := by decide
theorem test_fetch_word_runs_next :
    pixAfter (step (State.reset.withFetchWord 40 0x278563412)) = some 0x78563412 := by decide

/-! ## Assembly text (30_encoding.md R42) and bytes (20_memory.md R31) -/

theorem test_parse_pack_line :
    parseLine ['P', 'A', 'C', 'K', ' ', '0', 'x', 'A', 'b', ',', '3', ',', ' ', '1', '2', ',', '0', 'x', 'F', '1', ' ', ';', 'N'] =
      .ok (some (.command (.pack 0xAB 3 12 0xF1))) := by decide
theorem test_parse_set_pseudo :
    parseLine ['S', 'E', 'T', ' ', 'G', ',', ' ', '7'] = .ok (some (.set .green 7)) := by decide
theorem test_parse_comment_only : parseLine [' ', ';', 'N', 'O', 'P'] = .ok none := by decide
theorem test_parse_missing_comma_refused :
    parseLine ['P', 'A', 'C', 'K', ' ', '1', ' ', '2', ',', '3', ',', '4'] = .error .syntaxError := by decide
theorem test_assemble_text_wide_operand_refused :
    assembleText .rgb565 [['C', 'L', 'E', 'A', 'R'], ['L', 'O', 'A', 'D', ' ', '6', '5', '5', '3', '6']] =
      .error .operandTooWide := by decide
theorem test_storage_bytes_little : storageBytes .little 0x1234#16 = [0x34, 0x12] := by decide
theorem test_storage_bytes_big : storageBytes .big 0x1234#16 = [0x12, 0x34] := by decide

/-! ## Witnesses: for each obligation with hypotheses, what meets them -/

/-- A running RGB565 block, alpha empty at offset `W`. -/
def runningBlock : State := block .rgb565 0xF802 []

/-- The hypotheses shared by the statements about a running block: an admitted format and a word in `PIX`. -/
abbrev IsRunningWith (s : State) (x : Word s.fmt.W) : Prop := s.fmt.wf = true ∧ s.pix = some x

theorem witness_NopLeavesStateUnchanged : IsRunningWith runningBlock 0xF802#16 := by decide
theorem witness_LoadStoresRawWord : IsRunningWith (block .rgb888x 0xDEADBEEF []) 0xDEADBEEF#32 := by decide
theorem witness_PackBuildsWordFromFields : IsRunningWith (block .rgba5551 0xFFFF []) 0xFFFF#16 := by decide
/-- A field of the largest and one of the smallest width, and a bit outside all fields. -/
theorem witness_PackBuildsWordFromFields_clauses :
    5 < Format.rgb565.width .green ∧ (31 < Format.rgb888x.W ∧ ∀ c ∈ Channel.all, ¬ InField .rgb888x c 31) := by decide
theorem witness_SetCommandsReplaceOneField : IsRunningWith (block .rgb888x 0xDEADBEEF []) 0xDEADBEEF#32 := by decide
/-- The last bit of a field, the first bit after it, and the last bit of the word. -/
theorem witness_SetCommandsReplaceOneField_clauses :
    7 < Format.rgb888x.width .blue ∧ (24 < Format.rgb888x.W ∧ ¬ InField .rgb888x .blue 24) ∧
      (31 < Format.rgb888x.W ∧ ¬ InField .rgb888x .alpha 31) := by decide
theorem witness_PaddingBitsPerCommand : IsRunningWith (block .rgb888x 0xDEADBEEF []) 0xDEADBEEF#32 := by decide
theorem witness_CommandsAreIdempotent : ∃ t, exec (.setr 0x22) runningBlock = .next t := ⟨_, rfl⟩
theorem witness_SetChannelReadsBack :
    IsRunningWith runningBlock 0xF802#16 ∧ 0x3F < 2 ^ runningBlock.fmt.width .green := by decide
theorem witness_SetChannelLeavesOthers : Format.rgb888x.wf = true ∧ Channel.blue ≠ Channel.green := by decide
theorem witness_ZeroWidthChannelIsInert : Format.rgb565.width .alpha = 0 := by decide
theorem witness_FurtherChannelIdentities : Format.rgba5551.wf = true ∧ Channel.blue ≠ Channel.alpha := by decide
theorem witness_SetsInAnyOrderEqualPack :
    IsRunningWith runningBlock 0xF802#16 ∧
      [Instr.seta 1, .setg 0x0A, .setb 0x15, .setr 0x3F].Perm [.setr 0x3F, .setg 0x0A, .setb 0x15, .seta 1] := by decide
theorem witness_ChannelOfReadsTheField : Format.rgb565.wf = true ∧ Format.rgb565.width .alpha = 0 := by decide
theorem witness_MasksPartitionTheWord : Format.rgb888x.wf = true ∧ Channel.red ≠ Channel.alpha := by decide
theorem witness_DecodeOfEncode :
    Instr.wf .rgb565 (.load 0xFFFF) = true ∧ Instr.wf .rgb565 (.pack 255 0 255 0) = true ∧
      Instr.wf .rgb565 (.setr 255) = true ∧ Instr.wf .rgb565 (.setg 255) = true ∧ Instr.wf .rgb565 (.setb 255) = true ∧
      Instr.wf .rgb565 (.seta 255) = true ∧ Instr.wf .rgb565 .nop = true := by decide
theorem witness_DecodedCommandIsWellFormed : decode .rgb565 0b001 0xABCD1234#32 = .ok (.load 0x1234) := by decide
theorem witness_OnlyReservedOpcodeIsNoCommand : IsRunningWith runningBlock 0xF802#16 := by decide
theorem witness_AssembledLinePresentsItsCommand :
    (AsmLine.set .alpha 255).expand = some (.seta 255) ∧ Instr.wf .rgb565 (.seta 255) = true ∧
      (AsmLine.set .alpha 256).expand = some (.seta 256) ∧ Instr.wf .rgb565 (.seta 256) = false := by decide
theorem witness_FormatCheckSaysWhatItMust :
    (0 < Format.rgb565.W ∧ Format.rgb565.wf = true) ∧
      (0 < (Format.mk 16 8 5 6 5 0 0 4 11 16).W ∧ (Format.mk 16 8 5 6 5 0 0 4 11 16).wf = false) := by decide
theorem witness_IllFormedFormatHasNoBehaviour :
    (State.powerUp (Format.mk 16 8 5 6 5 0 0 4 11 16)).fmt.wf = false := by decide
theorem witness_StandardFormatsMatchTheTable : Format.rgb565 ∈ Format.standard := by decide
theorem witness_ResetClearsPix :
    ∃ es, (block .rgb565 0xF802 [⟨true, true, 0b011, 0⟩]).fmt.wf = true ∧
      (block .rgb565 0xF802 [⟨true, true, 0b011, 0⟩]).port = ⟨true, true, 0b011, 0⟩ :: es := ⟨[], by decide, rfl⟩
theorem witness_PixOutAroundFirstReset :
    Format.rgb565.wf = true ∧ elaborate .rgb565 = .next (State.powerUp .rgb565) ∧
      ((State.powerUp .rgb565).withPort [⟨false, false, 0b011, 0⟩]).fmt.wf = true ∧
      ((State.powerUp .rgb565).withPort [⟨false, false, 0b011, 0⟩]).pix = none := ⟨by decide, rfl, by decide, rfl⟩
theorem witness_BootLeadsToResetState :
    Format.rgba8888.wf = true ∧ (PortSample.reset : PortSample Format.rgba8888.DW).rst = true := by decide
theorem witness_PixOutFollowsPix :
    (block .rgb565 0 [.present 0b001 0xFFFF]).Running ∧
      ∃ t, step (block .rgb565 0 [.present 0b001 0xFFFF]) = .next t := ⟨by decide, _, rfl⟩
theorem witness_CommandBeforeResetIsRefused :
    (State.powerUp .rgb565).fmt.wf = true ∧ (State.powerUp .rgb565).pix = none := by decide
theorem witness_ReservedOpcodeIsRefused :
    (block .rgb565 0 [.present 0b011 0]).fmt.wf = true ∧
      (block .rgb565 0 [.present 0b011 0]).port = .present 0b011 0 :: [] := by decide
theorem witness_StepRunsPresentedCommand :
    (block .rgb565 0 [.present 0b110 0x1F]).fmt.wf = true ∧
      (block .rgb565 0 [.present 0b110 0x1F]).port = .present 0b110 0x1F :: [] ∧
      decode .rgb565 0b110 0x1F#32 = .ok (.setb 0x1F) := by decide
theorem witness_IdleStepChangesNothing :
    (block .rgb565 0 [⟨false, false, 0b011, 0⟩]).fmt.wf = true ∧
      (block .rgb565 0 [⟨false, false, 0b011, 0⟩]).port = ⟨false, false, 0b011, 0⟩ :: [] ∧ runningBlock.port = [] := by
  decide
theorem witness_PlacedWordRunsNext :
    runningBlock.fmt.wf = true ∧ decodeWord .rgb565 (0x500000000 % 2 ^ 40) = .ok (.setg 0) := by decide
theorem witness_StepChangesOnlyPix : ∃ t, step (block .rgb565 0 [.present 0b110 0x1F]) = .next t := ⟨_, rfl⟩
theorem witness_StepKeepsRunning :
    (block .rgb565 0 [.reset]).Running ∧ ∃ t, step (block .rgb565 0 [.reset]) = .next t := ⟨by decide, _, rfl⟩
theorem witness_PaddingStaysClearWithoutLoad :
    (block .rgb888x 0x00FFFFFF [.present 0b110 0]).PaddingClear ∧
      (∀ e ∈ (block .rgb888x 0x00FFFFFF [.present 0b110 0]).port, e.presentsLoad = false) ∧
      ∃ t, step (block .rgb888x 0x00FFFFFF [.present 0b110 0]) = .next t :=
  ⟨⟨_, rfl, by decide⟩, by decide, _, rfl⟩
theorem witness_ResetErasesHistory : (PortSample.reset : PortSample Format.rgb565.DW).rst = true := by decide
theorem witness_PortRunIsTheCommandSequence :
    ∀ i ∈ [Instr.load 0xFFFF, .setg 0, .seta 0xAB], i.wf runningBlock.fmt = true := by decide
theorem witness_RunIsObservedUnlessReserved :
    observe .rgb565 [.present 0b001 0x1234] = .next 0x1234 ∧
      observe .rgb565 [.present 0b011 0] = .refused (.undecodable .reservedOpcode) := ⟨rfl, rfl⟩
/-- A reserved opcode that reset overrides. -/
theorem witness_RunningStepCompletesUnlessReserved :
    (block .rgb565 0xF802 [⟨true, true, 0b011, 0⟩]).Running ∧
      ∀ e es, (block .rgb565 0xF802 [⟨true, true, 0b011, 0⟩]).port = e :: es → e.presentsReserved = false :=
  ⟨by decide, fun _ _ h => by cases h; rfl⟩
/-- No sample left. -/
theorem witness_RunningStepCompletesUnlessReserved_idle :
    runningBlock.Running ∧ ∀ e es, runningBlock.port = e :: es → e.presentsReserved = false :=
  ⟨by decide, fun _ _ h => by cases h⟩
theorem witness_SerialisedBytesHoldTheWord :
    (storageBytes .little 0xABC#12)[1]? = some 0x0A#8 ∧ 7 < 8 := by decide

end Sys2Proof.Machine.Tests
end

section
/-! The format check against the three conditions of 00_scope.md R9: an equivalence for each part of the check, then the
count of field bits behind R9's consequence. -/

namespace Sys2Proof

theorem Channel.all_all_eq_true (p : Channel → Bool) : Channel.all.all p = true ↔ ∀ c, p c = true := by
  simp [List.all_eq_true, Channel.mem_all]

theorem Format.fits_iff (f : Format) : f.fits = true ↔ ∀ c, f.offset c + f.width c ≤ f.W := by
  simp only [Format.fits, Channel.all_all_eq_true, decide_eq_true_eq]

theorem Format.channelsFit_iff (f : Format) : f.channelsFit = true ↔ ∀ c, f.width c ≤ f.CW := by
  simp only [Format.channelsFit, Channel.all_all_eq_true, decide_eq_true_eq]

/-- Two fields that meet at all meet at the larger of their two offsets, so the check's comparison of bounds misses no
shared bit. -/
theorem Format.apart_iff (f : Format) (c d : Channel) :
    f.apart c d = true ↔ ∀ i, ¬ (Machine.InField f c i ∧ Machine.InField f d i) := by
  simp only [Format.apart, Bool.or_eq_true, decide_eq_true_eq]
  constructor
  · intro hapart i
    omega
  · intro hdisjoint
    have hmax := hdisjoint (max (f.offset c) (f.offset d))
    omega

theorem Format.noOverlap_iff (f : Format) :
    f.noOverlap = true ↔ ∀ c d, c ≠ d → ∀ i, ¬ (Machine.InField f c i ∧ Machine.InField f d i) := by
  simp only [Format.noOverlap, Channel.all_all_eq_true, Bool.or_eq_true, decide_eq_true_eq, Format.apart_iff,
    or_iff_not_imp_left, ne_eq]

theorem Format.wf_iff {f : Format} (hW : 0 < f.W) :
    f.wf = true ↔
      (∀ c, f.offset c + f.width c ≤ f.W) ∧
      (∀ c d, c ≠ d → ∀ i, ¬ (Machine.InField f c i ∧ Machine.InField f d i)) ∧
      ∀ c, f.width c ≤ f.CW := by
  simp only [Format.wf, Bool.and_eq_true, decide_eq_true_eq, hW, true_and, Format.fits_iff, Format.noOverlap_iff,
    Format.channelsFit_iff, and_assoc]

/-- The bit positions of channel `c`'s field, those of `Machine.InField`, as a set that can be counted. -/
def Format.fieldBits (f : Format) (c : Channel) : Finset Nat := Finset.Ico (f.offset c) (f.offset c + f.width c)

theorem Format.mem_fieldBits (f : Format) (c : Channel) (i : Nat) : i ∈ f.fieldBits c ↔ Machine.InField f c i :=
  Finset.mem_Ico

@[simp] theorem Format.card_fieldBits (f : Format) (c : Channel) : (f.fieldBits c).card = f.width c := by
  simp [Format.fieldBits]

theorem Format.fieldBits_subset_of_wf {f : Format} (h : f.wf = true) (c : Channel) :
    f.fieldBits c ⊆ Finset.range f.W := by
  intro i hi
  have hfit := Format.fits_of_wf h c
  obtain ⟨_, hlt⟩ := (f.mem_fieldBits c i).mp hi
  exact Finset.mem_range.mpr (hlt.trans_le hfit)

theorem Format.disjoint_fieldBits_of_wf {f : Format} (h : f.wf = true) {c d : Channel} (hcd : c ≠ d) :
    Disjoint (f.fieldBits c) (f.fieldBits d) := by
  refine Finset.disjoint_left.mpr fun i hc hd => ?_
  rw [Format.mem_fieldBits] at hc hd
  exact (f.apart_iff c d).mp (Format.apart_of_wf h hcd) i ⟨hc, hd⟩

theorem Format.bitsPerPixel_eq_sum (f : Format) : f.bitsPerPixel = ∑ c ∈ Channel.all.toFinset, f.width c := by
  simp [Format.bitsPerPixel, Channel.all, Format.width, Nat.add_assoc]

/-- R9's consequence: the fields are disjoint sets of bits of the word, so together they have at most `W` of them. -/
theorem Format.bitsPerPixel_le_W_of_wf {f : Format} (h : f.wf = true) : f.bitsPerPixel ≤ f.W :=
  calc f.bitsPerPixel
      = ∑ c ∈ Channel.all.toFinset, (f.fieldBits c).card := by simp [Format.bitsPerPixel_eq_sum]
    _ = (Channel.all.toFinset.biUnion f.fieldBits).card :=
        (Finset.card_biUnion fun _ _ _ _ hcd => Format.disjoint_fieldBits_of_wf h hcd).symm
    _ ≤ (Finset.range f.W).card :=
        Finset.card_le_card (Finset.biUnion_subset.mpr fun c _ => Format.fieldBits_subset_of_wf h c)
    _ = f.W := Finset.card_range f.W

theorem Machine.elaborate_of_wf {f : Format} (h : f.wf = true) :
    Machine.elaborate f = .next (Machine.State.powerUp f) := by
  simp [Machine.elaborate, h]

theorem Machine.elaborate_of_not_wf {f : Format} (h : f.wf = false) :
    Machine.elaborate f = .refused .illFormedFormat := by
  simp [Machine.elaborate, h]

/-- Settles O20: each part of the check is its condition of R9, and the sum is a count of disjoint bits. -/
theorem formatCheckSaysWhatItMust : Obligations.FormatCheckSaysWhatItMust := fun _ hW =>
  ⟨Format.wf_iff hW, Format.bitsPerPixel_le_W_of_wf, Machine.elaborate_of_wf, Machine.elaborate_of_not_wf⟩

end Sys2Proof
end

section
/-! What each command does to the padding bits (10_state.md R26): no field mask meets the padding mask, so neither a placed
channel value nor an insertion reaches a padding bit. -/

namespace Sys2Proof

theorem getLsbD_paddingMask_of_fieldMask {f : Format} {c : Channel} {i : Nat} (hc : (fieldMask f c).getLsbD i = true) :
    (paddingMask f).getLsbD i = false := by
  rw [getLsbD_paddingMask]
  cases c <;> simp [hc]

theorem placed_and_paddingMask (f : Format) (c : Channel) (v : Nat) : placed f c v &&& paddingMask f = 0 := by
  refine BitVec.eq_of_getLsbD_eq fun i _ => ?_
  rw [BitVec.getLsbD_and, getLsbD_placed]
  cases hc : (fieldMask f c).getLsbD i with
  | true => simp [getLsbD_paddingMask_of_fieldMask hc]
  | false => simp

theorem insertField_and_paddingMask (f : Format) (x : Word f.W) (c : Channel) (v : Nat) :
    insertField f x c v &&& paddingMask f = x &&& paddingMask f := by
  refine BitVec.eq_of_getLsbD_eq fun i _ => ?_
  rw [BitVec.getLsbD_and, BitVec.getLsbD_and, getLsbD_insertField]
  cases hc : (fieldMask f c).getLsbD i with
  | true => simp [getLsbD_paddingMask_of_fieldMask hc]
  | false => simp

/-- The packed word is 0 with four placed values or'd in, so the padding mask takes everything from it. -/
theorem packWord_and_paddingMask (f : Format) (r g b a : Nat) : packWord f r g b a &&& paddingMask f = 0 := by
  simp [packWord, BitVec.and_or_distrib_right, placed_and_paddingMask]

namespace Machine

theorem effect_setCommand (f : Format) (c : Channel) (v : Nat) (x : Word f.W) :
    effect f (setCommand c v) x = insertField f x c v := by
  cases c <;> rfl

/-- Settles O5: a running block completes every command with the command's effect, and each effect's padding bits are known. -/
theorem paddingBitsPerCommand : Obligations.PaddingBitsPerCommand := by
  intro s x hwf hx
  refine ⟨fun raw => ?load, fun r g b a => ?pack, fun c v => ?set, ?nop⟩
  case load => exact ⟨_, exec_running hwf hx (.load raw), rfl⟩
  case pack => exact ⟨_, exec_running hwf hx (.pack r g b a), packWord_and_paddingMask s.fmt r g b a⟩
  case set =>
    refine ⟨_, exec_running hwf hx (setCommand c v), ?_⟩
    rw [effect_setCommand, insertField_and_paddingMask]
  case nop => exact ⟨_, exec_running hwf hx .nop, rfl⟩

end Machine

end Sys2Proof
end

section
/-! The output `pix_out` (10_state.md R24, R27): a running block shows `PIX`, and every step keeps a block running; before the
first reset a read faults. -/

namespace Sys2Proof.Machine

theorem State.pixOut_of_some {s : State} {x : Word s.fmt.W} (hwf : s.fmt.wf = true) (hx : s.pix = some x) :
    s.pixOut = .next x := by
  simp [State.pixOut, hwf, hx]

theorem State.pixOut_of_none {s : State} (hwf : s.fmt.wf = true) (hx : s.pix = none) :
    s.pixOut = .fault .pixOutReadBeforeReset := by
  simp [State.pixOut, hwf, hx]

theorem State.Running.pixOut {s : State} (h : s.Running) : ∃ x, s.pix = some x ∧ s.pixOut = .next x := by
  obtain ⟨hwf, hsome⟩ := h
  obtain ⟨x, hx⟩ := Option.isSome_iff_exists.mp hsome
  exact ⟨x, hx, State.pixOut_of_some hwf hx⟩

theorem State.setPix_running {s : State} (hwf : s.fmt.wf = true) (x : Word s.fmt.W) : (s.setPix x).Running := ⟨hwf, rfl⟩

theorem sampleEdge_running {s t : State} {e : PortSample s.fmt.DW} (hs : s.Running) (h : sampleEdge s e = .next t) :
    t.Running := by
  obtain ⟨-, rfl⟩ | ⟨-, -, i, -, hexec⟩ | ⟨-, -, rfl⟩ := sampleEdge_next h
  · exact State.setPix_running hs.1 0
  · obtain ⟨hwf, -, y, -, rfl⟩ := exec_next hexec
    exact State.setPix_running hwf y
  · exact hs

theorem step_running {s t : State} (hs : s.Running) (h : step s = .next t) : t.Running := by
  obtain ⟨-, ⟨-, rfl⟩ | ⟨e, es, -, hedge⟩⟩ := risingEdge_next h
  · exact hs
  · exact sampleEdge_running (s := s.withPort es) hs hedge

/-- Settles O26: a step leads from a running block to a running block, and a running block shows `PIX`. -/
theorem pixOutFollowsPix : Obligations.PixOutFollowsPix := fun _ hs =>
  ⟨hs.pixOut, fun _ hstep => (step_running hs hstep).pixOut⟩

theorem elaborate_next {f : Format} {s : State} (h : elaborate f = .next s) : f.wf = true ∧ s = State.powerUp f := by
  cases hwf : f.wf with
  | true =>
    rw [elaborate_of_wf hwf] at h
    cases h
    exact ⟨rfl, rfl⟩
  | false =>
    rw [elaborate_of_not_wf hwf] at h
    cases h

/-- Settles O24: the state after reset holds the word 0, the one elaboration gives holds none, and a read needs a word. -/
theorem pixOutAroundFirstReset : Obligations.PixOutAroundFirstReset := by
  refine ⟨fun f hwf => ?reset, fun f s h => ?elaborated, fun s => State.pixOut_of_none⟩
  case reset => exact ⟨rfl, State.pixOut_of_some (s := State.resetOf f) hwf rfl⟩
  case elaborated =>
    obtain ⟨hwf, rfl⟩ := elaborate_next h
    exact ⟨hwf, rfl⟩

end Sys2Proof.Machine
end

section
/-! The opcode map (30_encoding.md R39): what the decoder answers under each opcode, with the operands as numbers (R38), and
that `011` is the one opcode of no command (R40, R41). -/

namespace Sys2Proof

/-- The operand in the low `CW` bits of the bus, where no division is left. -/
theorem channelOperand_zero_eq (f : Format) (data : BitVec f.DW) :
    channelOperand f 0 data = data.toNat % 2 ^ f.CW := by
  simp [channelOperand_eq]

@[simp] theorem decode_nop (f : Format) (data : BitVec f.DW) : decode f 0b000 data = .ok .nop := rfl

theorem decode_load (f : Format) (data : BitVec f.DW) :
    decode f 0b001 data = .ok (.load (data.toNat % 2 ^ f.W)) := by
  rw [← rawOperand_eq]
  rfl

theorem decode_pack (f : Format) (data : BitVec f.DW) :
    decode f 0b010 data = .ok (.pack (data.toNat % 2 ^ f.CW) (data.toNat / 2 ^ f.CW % 2 ^ f.CW)
      (data.toNat / 2 ^ (2 * f.CW) % 2 ^ f.CW) (data.toNat / 2 ^ (3 * f.CW) % 2 ^ f.CW)) := by
  have hg : channelOperand f 1 data = data.toNat / 2 ^ f.CW % 2 ^ f.CW := by rw [channelOperand_eq, Nat.one_mul]
  rw [← channelOperand_zero_eq, ← hg, ← channelOperand_eq, ← channelOperand_eq]
  rfl

@[simp] theorem decode_reserved (f : Format) (data : BitVec f.DW) : decode f 0b011 data = .error .reservedOpcode := rfl

/-- The opcode of a set command depends on the channel alone, and its operand on the low `CW` bits of the bus alone. -/
theorem decode_setCommand (f : Format) (c : Channel) (v : Nat) (data : BitVec f.DW) :
    decode f (opcode (Machine.setCommand c v)) data = .ok (Machine.setCommand c (data.toNat % 2 ^ f.CW)) := by
  rw [← channelOperand_zero_eq]
  cases c <;> rfl

/-- Settles O16: the decoder's answer under each opcode, the four sets being one rule over the channel. -/
theorem opcodeMapAndOperands : Obligations.OpcodeMapAndOperands := fun f data =>
  ⟨decode_nop f data, decode_load f data, decode_pack f data, decode_reserved f data, decode_setCommand f .red 0 data,
    decode_setCommand f .green 0 data, decode_setCommand f .blue 0 data, decode_setCommand f .alpha 0 data⟩

theorem decodesUnderItsOpcode (i : Instr) : Laws.DecodesUnderItsOpcode.Statement i := by
  cases i with
  | nop => exact Laws.DecodesUnderItsOpcode.nop
  | load raw => exact Laws.DecodesUnderItsOpcode.load raw
  | pack r g b a => exact Laws.DecodesUnderItsOpcode.pack r g b a
  | setr v => exact Laws.DecodesUnderItsOpcode.setr v
  | setg v => exact Laws.DecodesUnderItsOpcode.setg v
  | setb v => exact Laws.DecodesUnderItsOpcode.setb v
  | seta v => exact Laws.DecodesUnderItsOpcode.seta v

/-- Seven commands have seven opcodes, so of the eight values of `cmd_op` only `011` is left over. -/
theorem exists_opcode_eq_of_ne_reserved {op : OpField} (hop : op ≠ 0b011) : ∃ i, opcode i = op := by
  have hcover : ∀ op : OpField, op ≠ 0b011 → ∃ i ∈ [Instr.nop, .load 0, .pack 0 0 0 0, .setr 0, .setg 0, .setb 0, .seta 0],
      opcode i = op := by decide
  obtain ⟨i, -, hi⟩ := hcover op hop
  exact ⟨i, hi⟩

theorem exists_decode_eq_ok_iff (f : Format) (op : OpField) (data : BitVec f.DW) :
    (∃ i, decode f op data = .ok i) ↔ op ≠ 0b011 := by
  constructor
  · rintro ⟨i, hi⟩ rfl
    rw [decode_reserved] at hi
    cases hi
  · intro hop
    obtain ⟨i, rfl⟩ := exists_opcode_eq_of_ne_reserved hop
    obtain ⟨j, hj, -⟩ := decodesUnderItsOpcode i f data
    exact ⟨j, hj⟩

end Sys2Proof
end

section
/-! Rising edges that run no command: an idle one does what NOP does (30_encoding.md R41), and one that presents a bit pattern
with no command is refused (R40). -/

namespace Sys2Proof.Machine

theorem State.setPix_of_pix {s : State} {x : Word s.fmt.W} (hx : s.pix = some x) : s.setPix x = s := by
  rw [State.setPix, ← hx]

theorem exec_nop_running {s : State} {x : Word s.fmt.W} (hwf : s.fmt.wf = true) (hx : s.pix = some x) :
    exec .nop s = .next s :=
  calc exec .nop s = .next (s.setPix x) := exec_running hwf hx .nop
    _ = .next s := by rw [State.setPix_of_pix hx]

theorem sampleEdge_of_idle {s : State} {e : PortSample s.fmt.DW} (hrst : e.rst = false) (hvalid : e.cmdValid = false) :
    sampleEdge s e = .next s := by
  simp [sampleEdge, hrst, hvalid]

theorem sampleEdge_of_decode_error {s : State} {e : PortSample s.fmt.DW} {r : DecodeError} (hrst : e.rst = false)
    (hvalid : e.cmdValid = true) (hdecode : decode s.fmt e.cmdOp e.cmdData = .error r) :
    sampleEdge s e = .refused (.undecodable r) := by
  simp [sampleEdge, hrst, hvalid, hdecode]

/-- A rising edge consumes the host's next sample; `step_cons` for a state that is not written out. -/
theorem step_of_port_cons {s : State} {e : PortSample s.fmt.DW} {es : List (PortSample s.fmt.DW)} (hwf : s.fmt.wf = true)
    (hport : s.port = e :: es) : step s = sampleEdge (s.withPort es) e := by
  simp [step, risingEdge, hwf, hport]

/-- Settles O17: an idle edge and NOP both leave a running block as it is, and only `011` is left without a command. -/
theorem onlyReservedOpcodeIsNoCommand : Obligations.OnlyReservedOpcodeIsNoCommand := by
  refine ⟨fun s x hwf hx op data => ?idle, exists_decode_eq_ok_iff⟩
  case idle => rw [sampleEdge_of_idle rfl rfl, exec_nop_running hwf hx]

/-- Settles O28: the step samples `011`, which does not decode. -/
theorem reservedOpcodeIsRefused : Obligations.ReservedOpcodeIsRefused := by
  intro s data es hwf hport
  rw [step_of_port_cons hwf hport]
  exact sampleEdge_of_decode_error rfl rfl (decode_reserved s.fmt data)

end Sys2Proof.Machine
end

section
/-! The word PACK builds (40_construct.md R45): the fields of two channels share no bit, so a channel value may be put into a
word whose field of that channel is clear by insertion, by or, by addition or by exclusive or alike. -/

namespace Sys2Proof

theorem placed_and_fieldMask (f : Format) (c : Channel) (v : Nat) : placed f c v &&& fieldMask f c = placed f c v := by
  refine BitVec.eq_of_getLsbD_eq fun i _ => ?_
  rw [BitVec.getLsbD_and, getLsbD_placed]
  cases (fieldMask f c).getLsbD i <;> simp

theorem placed_and_fieldMask_of_ne {f : Format} (hwf : f.wf = true) {c d : Channel} (hcd : c ≠ d) (v : Nat) :
    placed f c v &&& fieldMask f d = 0 := by
  refine BitVec.eq_of_getLsbD_eq fun i _ => ?_
  rw [BitVec.getLsbD_and, getLsbD_placed]
  cases hc : (fieldMask f c).getLsbD i with
  | true => simp [fieldMask_disjoint hwf hcd i hc]
  | false => simp

theorem and_placed_of_and_fieldMask {f : Format} {x : Word f.W} {c : Channel} (hx : x &&& fieldMask f c = 0) (v : Nat) :
    x &&& placed f c v = 0 := by
  rw [← placed_and_fieldMask, BitVec.and_comm (placed f c v), ← BitVec.and_assoc, hx]
  exact BitVec.zero_and

theorem insertField_eq_or {f : Format} {x : Word f.W} {c : Channel} (hx : x &&& fieldMask f c = 0) (v : Nat) :
    insertField f x c v = x ||| placed f c v := by
  refine BitVec.eq_of_getLsbD_eq fun i _ => ?_
  rw [getLsbD_insertField, BitVec.getLsbD_or, getLsbD_placed]
  cases hc : (fieldMask f c).getLsbD i with
  | true =>
    have hxi : x.getLsbD i = false := by simpa [hc] using congrArg (·.getLsbD i) hx
    simp [hxi]
  | false => simp

theorem xor_eq_or_of_and_eq_zero {w : Nat} {x y : BitVec w} (h : x &&& y = 0) : x ^^^ y = x ||| y := by
  refine BitVec.eq_of_getLsbD_eq fun i _ => ?_
  rw [BitVec.getLsbD_xor, BitVec.getLsbD_or]
  cases hx : x.getLsbD i with
  | true =>
    have hy : y.getLsbD i = false := by simpa [hx] using congrArg (·.getLsbD i) h
    simp [hy]
  | false => simp

/-- Any way of putting a value into a clear field that agrees with or there builds PACK's word from 0: when a channel's turn
comes, only other channels have been placed, so its field is still clear. -/
theorem packWord_eq_of_put {f : Format} (hwf : f.wf = true) {put : Word f.W → Channel → Nat → Word f.W}
    (hput : ∀ x c v, x &&& fieldMask f c = 0 → put x c v = x ||| placed f c v) (r g b a : Nat) :
    packWord f r g b a = put (put (put (put 0 .red r) .green g) .blue b) .alpha a := by
  have hred : put 0 .red r = 0 ||| placed f .red r := hput _ _ _ (by simp)
  rw [hred, hput _ .green, hput _ .blue, hput _ .alpha, packWord] <;>
    simp [BitVec.and_or_distrib_right, placed_and_fieldMask_of_ne hwf]

theorem packWord_eq_insertField {f : Format} (hwf : f.wf = true) (r g b a : Nat) :
    packWord f r g b a =
      insertField f (insertField f (insertField f (insertField f 0 .red r) .green g) .blue b) .alpha a :=
  packWord_eq_of_put hwf (fun _ _ v hx => insertField_eq_or hx v) r g b a

theorem packWord_eq_add {f : Format} (hwf : f.wf = true) (r g b a : Nat) :
    packWord f r g b a = placed f .red r + placed f .green g + placed f .blue b + placed f .alpha a := by
  have hsum := packWord_eq_of_put hwf (put := fun x c v => x + placed f c v)
    (fun x _ v hx => BitVec.add_eq_or_of_and_eq_zero x _ (and_placed_of_and_fieldMask hx v)) r g b a
  simpa using hsum

theorem packWord_eq_xor {f : Format} (hwf : f.wf = true) (r g b a : Nat) :
    packWord f r g b a = placed f .red r ^^^ placed f .green g ^^^ placed f .blue b ^^^ placed f .alpha a := by
  have hxor := packWord_eq_of_put hwf (put := fun x c v => x ^^^ placed f c v)
    (fun _ _ v hx => xor_eq_or_of_and_eq_zero (and_placed_of_and_fieldMask hx v)) r g b a
  simpa using hxor

/-- Of the four placed values, the field of `c` shows the one of `c`. -/
theorem packWord_and_fieldMask {f : Format} (hwf : f.wf = true) (r g b a : Nat) (c : Channel) :
    packWord f r g b a &&& fieldMask f c = placed f c (Machine.packValue r g b a c) := by
  cases c <;>
    simp [packWord, Machine.packValue, BitVec.and_or_distrib_right, placed_and_fieldMask, placed_and_fieldMask_of_ne hwf]

theorem getLsbD_fieldMask_iff {f : Format} {i : Nat} (hi : i < f.W) (c : Channel) :
    (fieldMask f c).getLsbD i = true ↔ Machine.InField f c i := by
  rw [getLsbD_fieldMask]
  simp [hi]

theorem getLsbD_fieldMask_offset_add {f : Format} (hwf : f.wf = true) {c : Channel} {i : Nat} (hi : i < f.width c) :
    (fieldMask f c).getLsbD (f.offset c + i) = true := by
  have hfit := Format.fits_of_wf hwf c
  exact (getLsbD_fieldMask_iff (by omega) c).mpr (by omega)

theorem packWord_packedFrom {f : Format} (hwf : f.wf = true) (r g b a : Nat) :
    Machine.PackedFrom f (Machine.packValue r g b a) (packWord f r g b a) := by
  refine ⟨fun c i hi => ?field, fun i hi hout => ?outside⟩
  case field =>
    have hmask := getLsbD_fieldMask_offset_add hwf hi
    have hbit := congrArg (·.getLsbD (f.offset c + i)) (packWord_and_fieldMask hwf r g b a c)
    simpa [getLsbD_placed, hmask] using hbit
  case outside =>
    have hmask : ∀ c, (fieldMask f c).getLsbD i = false := fun c =>
      Bool.eq_false_iff.mpr fun hc => hout c ((getLsbD_fieldMask_iff hi c).mp hc)
    simp [packWord, getLsbD_placed, hmask]

end Sys2Proof
end

section
/-! The construction commands NOP, LOAD and PACK (40_construct.md R43 to R45), run directly and presented on the port. -/

namespace Sys2Proof.Machine

theorem sampleEdge_present_of_decode {s : State} {op : OpField} {data : BitVec s.fmt.DW} {i : Instr}
    (hdecode : decode s.fmt op data = .ok i) : sampleEdge s (.present op data) = exec i s := by
  simp [sampleEdge, hdecode]

/-- Settles O1: NOP writes `PIX` back to itself, `000` decodes to NOP whatever the bus holds, and an idle edge does nothing. -/
theorem nopLeavesStateUnchanged : Obligations.NopLeavesStateUnchanged := by
  intro s x hwf hx
  have hnop := exec_nop_running hwf hx
  refine ⟨hnop, fun data => ?presented, fun _ _ => sampleEdge_of_idle rfl rfl⟩
  case presented => rw [sampleEdge_present_of_decode (decode_nop s.fmt data), hnop]

theorem getLsbD_effect_load {f : Format} (x : Word f.W) (raw : Nat) {i : Nat} (hi : i < f.W) :
    (effect f (.load raw) x).getLsbD i = raw.testBit i := by
  rw [effect, BitVec.getLsbD_ofNat]
  simp [hi]

/-- Settles O2: LOAD's effect is its operand, and of the bus the operand keeps the `W` low bits, all that `PIX` holds. -/
theorem loadStoresRawWord : Obligations.LoadStoresRawWord := by
  intro s x hwf hx
  have hload : ∀ raw, exec (.load raw) s = .next (s.setPix (effect s.fmt (.load raw) x)) := fun raw =>
    exec_running hwf hx (.load raw)
  refine ⟨fun raw => ⟨_, hload raw, fun i hi => getLsbD_effect_load x raw hi⟩, fun data => ?presented⟩
  case presented =>
    refine ⟨_, (sampleEdge_present_of_decode (decode_load s.fmt data)).trans (hload _), fun i hi => ?_⟩
    rw [getLsbD_effect_load x _ hi]
    simp [Nat.testBit_mod_two_pow, hi, BitVec.testBit_toNat]

/-- PACK's operands on the bus by channel: number `packSlot c` from bit 0, each `CW` bits wide (30_encoding.md R38). -/
theorem packValue_of_bus (CW n : Nat) :
    packValue (n % 2 ^ CW) (n / 2 ^ CW % 2 ^ CW) (n / 2 ^ (2 * CW) % 2 ^ CW) (n / 2 ^ (3 * CW) % 2 ^ CW) =
      fun c => n / 2 ^ (packSlot c * CW) % 2 ^ CW := by
  funext c
  cases c <;> simp [packValue, packSlot]

/-- Settles O3: PACK's effect is the packed word, which has each operand in its field and three further forms. -/
theorem packBuildsWordFromFields : Obligations.PackBuildsWordFromFields := by
  intro s x hwf hx
  have hpack : ∀ r g b a, exec (.pack r g b a) s = .next (s.setPix (packWord s.fmt r g b a)) := fun r g b a =>
    exec_running hwf hx (.pack r g b a)
  refine ⟨fun r g b a => ?direct, fun data => ?presented⟩
  case direct =>
    exact ⟨_, hpack r g b a, packWord_packedFrom hwf r g b a, packWord_eq_insertField hwf r g b a,
      packWord_eq_add hwf r g b a, packWord_eq_xor hwf r g b a⟩
  case presented =>
    refine ⟨_, (sampleEdge_present_of_decode (decode_pack s.fmt data)).trans (hpack _ _ _ _), ?_⟩
    rw [← packValue_of_bus]
    exact packWord_packedFrom hwf _ _ _ _

end Sys2Proof.Machine
end

section
/-! The channel laws of the insert primitive (41_channel_set.md R50 to R52): inside its field it writes the value and outside
it nothing, so the channel reads back what was inserted and every other channel reads what it read before. -/

namespace Sys2Proof

theorem fieldMask_of_width_eq_zero {f : Format} {c : Channel} (hzero : f.width c = 0) : fieldMask f c = 0 := by
  simp [fieldMask, widthMask, hzero]

theorem channelOf_of_width_eq_zero {f : Format} {c : Channel} (hzero : f.width c = 0) (x : Word f.W) :
    channelOf f x c = 0 := by
  simp [channelOf, fieldMask_of_width_eq_zero hzero]

theorem insertField_of_width_eq_zero {f : Format} {c : Channel} (hzero : f.width c = 0) (x : Word f.W) (v : Nat) :
    insertField f x c v = x := by
  refine BitVec.eq_of_getLsbD_eq fun i _ => ?_
  simp [getLsbD_insertField, fieldMask_of_width_eq_zero hzero]

/-- Settles O9: the mask of an empty field is 0, so extraction sees no bit and insertion writes none. -/
theorem zeroWidthChannelIsInert : Obligations.ZeroWidthChannelIsInert := fun _ _ hzero x v =>
  ⟨channelOf_of_width_eq_zero hzero x, insertField_of_width_eq_zero hzero x v⟩

theorem insertField_fieldReplaced {f : Format} (hwf : f.wf = true) (x : Word f.W) (c : Channel) (v : Nat) :
    Machine.FieldReplaced f c v x (insertField f x c v) := by
  refine ⟨fun i hi => ?inside, fun i hi hout => ?outside⟩
  case inside => simp [getLsbD_insertField, getLsbD_fieldMask_offset_add hwf hi]
  case outside =>
    rw [getLsbD_insertField, if_neg fun hc => hout ((getLsbD_fieldMask_iff hi c).mp hc)]

/-- A channel's bit below its width is the field's bit there, the field being inside the word; it has no other bits. -/
theorem testBit_channelOf_of_wf {f : Format} (hwf : f.wf = true) (x : Word f.W) (c : Channel) (i : Nat) :
    (channelOf f x c).testBit i = (decide (i < f.width c) && x.getLsbD (f.offset c + i)) := by
  rw [testBit_channelOf]
  by_cases hi : i < f.width c
  · simp [getLsbD_fieldMask_offset_add hwf hi, hi]
  · simp [getLsbD_fieldMask, hi]

/-- The first law of R50: below the width both sides have the bits of `v`, above it none. -/
theorem channelOf_insertField_same {f : Format} (hwf : f.wf = true) (x : Word f.W) (c : Channel) (v : Nat) :
    channelOf f (insertField f x c v) c = v &&& widthMask f c := by
  obtain ⟨hfield, -⟩ := insertField_fieldReplaced hwf x c v
  refine Nat.eq_of_testBit_eq fun i => ?_
  rw [testBit_channelOf_of_wf hwf, Nat.testBit_and, testBit_widthMask]
  by_cases hi : i < f.width c
  · simp [hfield i hi, hi]
  · simp [hi]

theorem and_widthMask_of_lt {f : Format} {c : Channel} {v : Nat} (hv : v < 2 ^ f.width c) : v &&& widthMask f c = v := by
  rw [widthMask, Nat.and_two_pow_sub_one_of_lt_two_pow hv]

theorem insertField_and_fieldMask_of_ne {f : Format} (hwf : f.wf = true) {c d : Channel} (hdc : d ≠ c) (x : Word f.W)
    (v : Nat) : insertField f x c v &&& fieldMask f d = x &&& fieldMask f d := by
  refine BitVec.eq_of_getLsbD_eq fun i _ => ?_
  rw [BitVec.getLsbD_and, BitVec.getLsbD_and, getLsbD_insertField]
  cases hd : (fieldMask f d).getLsbD i with
  | true => simp [fieldMask_disjoint hwf hdc i hd]
  | false => simp

theorem channelOf_insertField_of_ne {f : Format} (hwf : f.wf = true) {c d : Channel} (hdc : d ≠ c) (x : Word f.W)
    (v : Nat) : channelOf f (insertField f x c v) d = channelOf f x d := by
  rw [channelOf, insertField_and_fieldMask_of_ne hwf hdc, channelOf]

/-- Settles O8: neither another field nor the padding shares a bit with the field that is set. -/
theorem setChannelLeavesOthers : Obligations.SetChannelLeavesOthers := fun f hwf x c v =>
  ⟨fun _ hdc => channelOf_insertField_of_ne hwf hdc x v, insertField_and_paddingMask f x c v⟩

end Sys2Proof
end

section
/-! The set commands SETR, SETG, SETB and SETA (41_channel_set.md R46 to R50), as one command with the channel as a parameter:
run directly and presented on the port. -/

namespace Sys2Proof.Machine

theorem exec_setCommand_running {s : State} {x : Word s.fmt.W} (hwf : s.fmt.wf = true) (hx : s.pix = some x) (c : Channel)
    (v : Nat) : exec (setCommand c v) s = .next (s.setPix (insertField s.fmt x c v)) := by
  rw [exec_running hwf hx, effect_setCommand]

theorem exec_setCommand_fieldReplaced {s : State} {x : Word s.fmt.W} (hwf : s.fmt.wf = true) (hx : s.pix = some x)
    (c : Channel) (v : Nat) : ∃ y, exec (setCommand c v) s = .next (s.setPix y) ∧ FieldReplaced s.fmt c v x y :=
  ⟨_, exec_setCommand_running hwf hx c v, insertField_fieldReplaced hwf x c v⟩

theorem sampleEdge_present_setCommand (s : State) (c : Channel) (v : Nat) (data : BitVec s.fmt.DW) :
    sampleEdge s (.present (opcode (setCommand c v)) data) = exec (setCommand c (data.toNat % 2 ^ s.fmt.CW)) s :=
  sampleEdge_present_of_decode (decode_setCommand s.fmt c v data)

/-- Settles O4: each of the four commands inserts into its channel, and each opcode presents its channel's command. -/
theorem setCommandsReplaceOneField : Obligations.SetCommandsReplaceOneField := by
  intro s x hwf hx
  have hset := exec_setCommand_fieldReplaced hwf hx
  refine ⟨fun v => ⟨hset .red v, hset .green v, hset .blue v, hset .alpha v⟩, fun p hp data => ?presented⟩
  case presented =>
    have hopcodes : ∀ q ∈ [((0b100 : OpField), Channel.red), (0b101, .green), (0b110, .blue), (0b111, .alpha)],
        q.1 = opcode (setCommand q.2 0) := by decide
    rw [hopcodes p hp, sampleEdge_present_setCommand]
    exact hset p.2 _

/-- Settles O7: the set command inserts its value, and a value in the channel's range loses nothing to the truncation. -/
theorem setChannelReadsBack : Obligations.SetChannelReadsBack := by
  intro s x hwf hx c v
  have hread := channelOf_insertField_same hwf x c v
  refine ⟨hread, fun hv => ⟨_, exec_setCommand_running hwf hx c v, ?_⟩⟩
  rw [hread, and_widthMask_of_lt hv]

end Sys2Proof.Machine
end

section
/-! A rising edge with `rst = 1` (70_reset_and_hazards.md R62): reset wins, so no part of the command is looked at. -/

namespace Sys2Proof.Machine

theorem sampleEdge_of_rst {s : State} {e : PortSample s.fmt.DW} (hrst : e.rst = true) :
    sampleEdge s e = .next s.applyReset := by
  simp [sampleEdge, hrst]

/-- Settles O23: the step samples `rst = 1` with the sample already consumed, so reset acts on what is left. -/
theorem resetClearsPix : Obligations.ResetClearsPix := by
  intro s valid op data es hwf hport
  calc step s
      = sampleEdge (s.withPort es) { rst := true, cmdValid := valid, cmdOp := op, cmdData := data } :=
        step_of_port_cons hwf hport
    _ = .next (s.withPort es).applyReset := sampleEdge_of_rst rfl
    _ = .next { fmt := s.fmt, pix := some 0, port := es } := rfl

end Sys2Proof.Machine
end

section
/-! The operand bus carries a command (30_encoding.md R36, R38, R42): presented on the port, a command comes back with each
operand reduced to its width, so a well-formed command comes back as it was. -/

namespace Sys2Proof

/-- The command with each operand reduced to its width, which is what the bus carries of it (30_encoding.md R38). -/
def Instr.truncate (f : Format) : Instr → Instr
  | .nop => .nop
  | .load raw => .load (raw % 2 ^ f.W)
  | .pack r g b a => .pack (r % 2 ^ f.CW) (g % 2 ^ f.CW) (b % 2 ^ f.CW) (a % 2 ^ f.CW)
  | .setr v => .setr (v % 2 ^ f.CW)
  | .setg v => .setg (v % 2 ^ f.CW)
  | .setb v => .setb (v % 2 ^ f.CW)
  | .seta v => .seta (v % 2 ^ f.CW)

/-- Fitting operands lose nothing to the reduction. -/
theorem Instr.truncate_of_wf {f : Format} {i : Instr} (h : i.wf f = true) : i.truncate f = i := by
  cases i <;> simp_all [Instr.wf, Instr.truncate, Nat.mod_eq_of_lt]

theorem oneOperandBus_mod {f : Format} {n : Nat} (hn : n ≤ f.DW) (v : Nat) :
    (oneOperandBus f v).toNat % 2 ^ n = v % 2 ^ n := by
  rw [oneOperandBus, BitVec.toNat_ofNat, Nat.mod_mod_of_dvd _ (Nat.pow_dvd_pow 2 hn)]

theorem getLsbD_append_width_add {m n : Nat} (x : BitVec m) (y : BitVec n) (i : Nat) :
    (x ++ y).getLsbD (n + i) = x.getLsbD i := by
  simp [BitVec.getLsbD_append]

theorem getLsbD_append_of_lt {m n : Nat} (x : BitVec m) (y : BitVec n) {i : Nat} (hi : i < n) :
    (x ++ y).getLsbD i = y.getLsbD i := by
  rw [BitVec.getLsbD_append, if_pos hi]

/-- Inside its slot of `CW` bits the bus has the bits of the slot's operand; the four slots fit on the bus. -/
theorem getLsbD_packBus (f : Format) (r g b a : Nat) (c : Channel) {i : Nat} (hi : i < f.CW) :
    (packBus f r g b a).getLsbD (Machine.packSlot c * f.CW + i) = (Machine.packValue r g b a c).testBit i := by
  have hDW := f.four_CW_le_DW
  have hbus : Machine.packSlot c * f.CW + i < f.DW := by cases c <;> simp only [Machine.packSlot] <;> omega
  have hoperand (v : Nat) : (BitVec.ofNat f.CW v).getLsbD i = v.testBit i := by
    rw [BitVec.getLsbD_ofNat, decide_eq_true hi, Bool.true_and]
  have htwo : 2 * f.CW + i = f.CW + (f.CW + i) := by omega
  have hthree : 3 * f.CW + i = f.CW + (f.CW + (f.CW + i)) := by omega
  rw [packBus, BitVec.getLsbD_setWidth, decide_eq_true hbus, Bool.true_and]
  cases c <;> simp only [Machine.packSlot, Machine.packValue, Nat.zero_mul, Nat.zero_add, Nat.one_mul, htwo, hthree,
    getLsbD_append_width_add, getLsbD_append_of_lt _ _ hi, hoperand]

theorem channelOperand_packBus (f : Format) (r g b a : Nat) (c : Channel) :
    channelOperand f (Machine.packSlot c) (packBus f r g b a) = Machine.packValue r g b a c % 2 ^ f.CW := by
  refine Nat.eq_of_testBit_eq fun i => ?_
  rw [channelOperand, BitVec.testBit_toNat, BitVec.getLsbD_extractLsb', Nat.testBit_mod_two_pow]
  by_cases hi : i < f.CW
  · rw [getLsbD_packBus f r g b a c hi]
  · simp [hi]

theorem decode_packBus (f : Format) (r g b a : Nat) :
    decode f 0b010 (packBus f r g b a) =
      .ok (.pack (r % 2 ^ f.CW) (g % 2 ^ f.CW) (b % 2 ^ f.CW) (a % 2 ^ f.CW)) := by
  have hslot := channelOperand_packBus f r g b a
  calc decode f 0b010 (packBus f r g b a)
      = .ok (.pack (channelOperand f (Machine.packSlot .red) (packBus f r g b a))
          (channelOperand f (Machine.packSlot .green) (packBus f r g b a))
          (channelOperand f (Machine.packSlot .blue) (packBus f r g b a))
          (channelOperand f (Machine.packSlot .alpha) (packBus f r g b a))) := rfl
    _ = _ := by rw [hslot, hslot, hslot, hslot]; rfl

theorem decode_oneOperandBus_setCommand (f : Format) (c : Channel) (v : Nat) :
    decode f (opcode (Machine.setCommand c v)) (oneOperandBus f v) = .ok (Machine.setCommand c (v % 2 ^ f.CW)) := by
  have hCW : f.CW ≤ f.DW := by have := f.four_CW_le_DW; omega
  rw [decode_setCommand, oneOperandBus_mod hCW]

/-- What the port makes of a command, whatever its operands: the command with its operands reduced. -/
theorem decode_operandBus (f : Format) (i : Instr) : decode f (opcode i) (operandBus f i) = .ok (i.truncate f) := by
  cases i with
  | nop => rfl
  | load raw => exact (decode_load f _).trans (by rw [operandBus, oneOperandBus_mod f.W_le_DW, Instr.truncate])
  | pack r g b a => exact decode_packBus f r g b a
  | setr v => exact decode_oneOperandBus_setCommand f .red v
  | setg v => exact decode_oneOperandBus_setCommand f .green v
  | setb v => exact decode_oneOperandBus_setCommand f .blue v
  | seta v => exact decode_oneOperandBus_setCommand f .alpha v

theorem decode_operandBus_of_wf {f : Format} {i : Instr} (h : i.wf f = true) :
    decode f (opcode i) (operandBus f i) = .ok i := by
  rw [decode_operandBus, Instr.truncate_of_wf h]

/-- Settles O14: the word splits into the opcode and the bus it was joined from, and the bus carries the operands. -/
theorem decodeOfEncode : Obligations.DecodeOfEncode := by
  intro f i hwf
  rw [encode, decodeWord_join, decode_operandBus_of_wf hwf]

/-- The decoder's answer is well-formed, every operand being a remainder, and it keeps the opcode. -/
theorem decode_eq_ok {f : Format} {op : OpField} {data : BitVec f.DW} {i : Instr} (h : decode f op data = .ok i) :
    i.wf f = true ∧ opcode i = op := by
  obtain ⟨j, rfl⟩ := exists_opcode_eq_of_ne_reserved ((exists_decode_eq_ok_iff f op data).mp ⟨i, h⟩)
  have hset : ∀ c v, decode f (opcode (Machine.setCommand c v)) data = .ok i →
      i.wf f = true ∧ opcode i = opcode (Machine.setCommand c v) := by
    intro c v hc
    rw [decode_setCommand] at hc
    cases hc
    cases c <;> exact ⟨decide_eq_true (Nat.mod_lt _ (Nat.two_pow_pos _)), rfl⟩
  cases j with
  | nop => cases h; exact ⟨rfl, rfl⟩
  | load raw => cases h; exact ⟨decide_eq_true (rawOperand_lt f data), rfl⟩
  | pack r g b a => cases h; exact ⟨by simp [Instr.wf, channelOperand_lt], rfl⟩
  | setr v => exact hset .red v h
  | setg v => exact hset .green v h
  | setb v => exact hset .blue v h
  | seta v => exact hset .alpha v h

/-- Settles O15. -/
theorem decodedCommandIsWellFormed : Obligations.DecodedCommandIsWellFormed := fun _ _ _ _ h => decode_eq_ok h

/-- Settles O18 by running the decoder on the eight words. -/
theorem listedWordsDecode : Obligations.ListedWordsDecode := by
  unfold Obligations.ListedWordsDecode
  decide

end Sys2Proof
end

section
/-! What one step can do. It consumes one sample and writes at most `PIX`, by reset or by a command's effect (10_state.md
section 2, 60_exceptions.md section 1); without a word in `PIX` or with an ill-formed format no command runs. -/

namespace Sys2Proof.Machine

theorem State.commit_of_ill_formed {s : State} (hwf : s.fmt.wf = false) (g : Word s.fmt.W → Word s.fmt.W) :
    s.commit g = .refused .illFormedFormat := by
  simp [State.commit, hwf]

theorem State.commit_of_none {s : State} (hwf : s.fmt.wf = true) (hx : s.pix = none) (g : Word s.fmt.W → Word s.fmt.W) :
    s.commit g = .refused .commandBeforeReset := by
  simp [State.commit, hwf, hx]

theorem exec_of_ill_formed {s : State} (hwf : s.fmt.wf = false) (i : Instr) : exec i s = .refused .illFormedFormat := by
  obtain ⟨g, hg⟩ := exec_eq_commit i s
  rw [hg, State.commit_of_ill_formed hwf]

theorem exec_of_none {s : State} (hwf : s.fmt.wf = true) (hx : s.pix = none) (i : Instr) :
    exec i s = .refused .commandBeforeReset := by
  obtain ⟨g, hg⟩ := exec_eq_commit i s
  rw [hg, State.commit_of_none hwf hx]

theorem exec_ne_fault (i : Instr) (s : State) (r : Fault) : exec i s ≠ .fault r := by
  obtain ⟨g, hg⟩ := exec_eq_commit i s
  rw [hg]
  exact s.commit_ne_fault g r

/-- The inversion of a command with the word it leaves named: what `exec_running` computes is all it can answer. -/
theorem exec_next_effect {i : Instr} {s t : State} (h : exec i s = .next t) :
    s.fmt.wf = true ∧ ∃ x, s.pix = some x ∧ t = s.setPix (effect s.fmt i x) := by
  obtain ⟨hwf, x, -, hx, -⟩ := exec_next h
  rw [exec_running hwf hx] at h
  cases h
  exact ⟨hwf, x, hx, rfl⟩

theorem step_of_ill_formed {s : State} (hwf : s.fmt.wf = false) : step s = .refused .illFormedFormat := by
  simp [step, risingEdge, hwf]

/-- After the host's last sample an edge changes nothing (log 2). -/
theorem step_of_port_nil {s : State} (hwf : s.fmt.wf = true) (hport : s.port = []) : step s = .next s := by
  simp [step, risingEdge, hwf, hport]

theorem sampleEdge_of_decode {s : State} {e : PortSample s.fmt.DW} {i : Instr} (hrst : e.rst = false)
    (hvalid : e.cmdValid = true) (hdecode : decode s.fmt e.cmdOp e.cmdData = .ok i) : sampleEdge s e = exec i s := by
  simp [sampleEdge, hrst, hvalid, hdecode]

theorem sampleEdge_ne_fault (s : State) (e : PortSample s.fmt.DW) (r : Fault) : sampleEdge s e ≠ .fault r := by
  cases hrst : e.rst with
  | true => simp [sampleEdge_of_rst hrst]
  | false =>
    cases hvalid : e.cmdValid with
    | false => simp [sampleEdge_of_idle hrst hvalid]
    | true =>
      cases hdecode : decode s.fmt e.cmdOp e.cmdData with
      | ok i => rw [sampleEdge_of_decode hrst hvalid hdecode]; exact exec_ne_fault i s r
      | error d => simp [sampleEdge_of_decode_error hrst hvalid hdecode]

theorem step_ne_fault (s : State) (r : Fault) : step s ≠ .fault r := by
  cases hwf : s.fmt.wf with
  | false => simp [step_of_ill_formed hwf]
  | true =>
    cases hport : s.port with
    | nil => simp [step_of_port_nil hwf hport]
    | cons e es => rw [step_of_port_cons hwf hport]; exact sampleEdge_ne_fault (s.withPort es) e r

/-- Settles O32: a fault would have to come from a command, and commands only commit. -/
theorem nothingEverFaults : Obligations.NothingEverFaults := fun s =>
  ⟨step_ne_fault s, fun i r => exec_ne_fault i s r⟩

theorem sampleEdge_frame {s t : State} {e : PortSample s.fmt.DW} (h : sampleEdge s e = .next t) :
    ∃ p, t = { s with pix := p } := by
  obtain ⟨-, rfl⟩ | ⟨-, -, i, -, hexec⟩ | ⟨-, -, rfl⟩ := sampleEdge_next h
  · exact ⟨some 0, rfl⟩
  · obtain ⟨-, -, y, -, rfl⟩ := exec_next hexec
    exact ⟨some y, rfl⟩
  · exact ⟨t.pix, rfl⟩

theorem step_frame {s t : State} (h : step s = .next t) : ∃ p, t = { fmt := s.fmt, pix := p, port := s.port.tail } := by
  obtain ⟨-, ⟨hport, rfl⟩ | ⟨e, es, hport, hedge⟩⟩ := risingEdge_next h
  · refine ⟨t.pix, ?_⟩
    rw [hport, List.tail_nil, ← hport]
  · rw [hport]
    exact sampleEdge_frame hedge

/-- Settles O33. -/
theorem stepChangesOnlyPix : Obligations.StepChangesOnlyPix := fun _ _ h => step_frame h

/-- Settles O34: reset and commands write a word to `PIX`, and an idle edge keeps the one that is there. -/
theorem stepKeepsRunning : Obligations.StepKeepsRunning := fun _ _ hs h => step_running hs h

theorem State.pixOut_of_ill_formed {s : State} (hwf : s.fmt.wf = false) : s.pixOut = .refused .illFormedFormat := by
  simp [State.pixOut, hwf]

/-- Settles O21: the format is checked before the port or `PIX` is looked at. -/
theorem illFormedFormatHasNoBehaviour : Obligations.IllFormedFormatHasNoBehaviour := fun _ hwf =>
  ⟨step_of_ill_formed hwf, State.pixOut_of_ill_formed hwf, exec_of_ill_formed hwf⟩

/-- Settles O27: `commit` finds no word to compute from, and an idle edge needs none. -/
theorem commandBeforeResetIsRefused : Obligations.CommandBeforeResetIsRefused := fun _ hwf hx =>
  ⟨exec_of_none hwf hx, fun _ _ => sampleEdge_of_idle rfl rfl⟩

/-- Settles O29. -/
theorem stepRunsPresentedCommand : Obligations.StepRunsPresentedCommand := by
  intro s e es i hwf hport hrst hvalid hdecode
  rw [step_of_port_cons hwf hport]
  exact sampleEdge_of_decode (s := s.withPort es) hrst hvalid hdecode

/-- Settles O30. -/
theorem idleStepChangesNothing : Obligations.IdleStepChangesNothing := by
  intro s hwf
  refine ⟨fun e es hport hrst hvalid => ?idle, step_of_port_nil hwf⟩
  case idle =>
    rw [step_of_port_cons hwf hport]
    exact sampleEdge_of_idle hrst hvalid

theorem decodeWord_eq_ok {f : Format} {cmd : Nat} {i : Instr} (h : decodeWord f cmd = .ok i) :
    decode f (wordOp f cmd) (wordData f cmd) = .ok i := by
  unfold decodeWord at h
  split at h
  · exact h
  · cases h

/-- Settles O31: the placed word stands first on the port as its opcode and bus, and consuming it restores the port. -/
theorem placedWordRunsNext : Obligations.PlacedWordRunsNext := by
  intro s nbits w i hwf hdecode
  calc step (s.withFetchWord nbits w)
      = sampleEdge s (.present (wordOp s.fmt (w % 2 ^ nbits)) (wordData s.fmt (w % 2 ^ nbits))) :=
        step_of_port_cons (s := s.withFetchWord nbits w) hwf rfl
    _ = exec i s := sampleEdge_present_of_decode (decodeWord_eq_ok hdecode)

/-- Settles O25: the one sample is consumed, and reset writes 0 to `PIX`. -/
theorem bootLeadsToResetState : Obligations.BootLeadsToResetState := by
  intro f e hwf hrst
  calc step ((State.powerUp f).withPort [e])
      = sampleEdge (State.powerUp f) e := step_of_port_cons (s := (State.powerUp f).withPort [e]) hwf rfl
    _ = .next (State.resetOf f) := sampleEdge_of_rst hrst

end Sys2Proof.Machine
end

section
/-! Progress: only the reserved opcode stops a running block (30_encoding.md R40, R41). -/

namespace Sys2Proof.Machine

theorem PortSample.presentsReserved_iff {DW : Nat} (e : PortSample DW) :
    e.presentsReserved = true ↔ e.rst = false ∧ e.cmdValid = true ∧ e.cmdOp = 0b011 := by
  simp [PortSample.presentsReserved, and_assoc]

theorem sampleEdge_of_presentsReserved {s : State} {e : PortSample s.fmt.DW} (he : e.presentsReserved = true) :
    sampleEdge s e = .refused (.undecodable .reservedOpcode) := by
  obtain ⟨hrst, hvalid, hop⟩ := e.presentsReserved_iff.mp he
  exact sampleEdge_of_decode_error hrst hvalid (hop ▸ decode_reserved s.fmt e.cmdData)

theorem exists_sampleEdge_next {s : State} (hs : s.Running) {e : PortSample s.fmt.DW}
    (he : e.presentsReserved = false) : ∃ t, sampleEdge s e = .next t := by
  obtain ⟨hwf, hsome⟩ := hs
  obtain ⟨x, hx⟩ := Option.isSome_iff_exists.mp hsome
  cases hrst : e.rst with
  | true => exact ⟨_, sampleEdge_of_rst hrst⟩
  | false =>
    cases hvalid : e.cmdValid with
    | false => exact ⟨_, sampleEdge_of_idle hrst hvalid⟩
    | true =>
      have hop : e.cmdOp ≠ 0b011 := fun hop =>
        Bool.eq_false_iff.mp he (e.presentsReserved_iff.mpr ⟨hrst, hvalid, hop⟩)
      obtain ⟨i, hi⟩ := (exists_decode_eq_ok_iff s.fmt e.cmdOp e.cmdData).mpr hop
      exact ⟨_, (sampleEdge_of_decode hrst hvalid hi).trans (exec_running hwf hx i)⟩

theorem exists_step_next {s : State} (hs : s.Running) (hport : ∀ e es, s.port = e :: es → e.presentsReserved = false) :
    ∃ t, step s = .next t := by
  cases hp : s.port with
  | nil => exact ⟨s, step_of_port_nil hs.1 hp⟩
  | cons e es =>
    rw [step_of_port_cons hs.1 hp]
    exact exists_sampleEdge_next (s := s.withPort es) hs (hport e es hp)

/-- Settles O41: every opcode but `011` decodes, every command completes on a running block, and a step keeps it running. -/
theorem runningStepCompletesUnlessReserved : Obligations.RunningStepCompletesUnlessReserved := by
  intro s hs hport
  obtain ⟨t, ht⟩ := exists_step_next hs hport
  exact ⟨t, ht, step_running hs ht⟩

end Sys2Proof.Machine
end

section
/-! Clear padding as an invariant (10_state.md R26): reset clears the padding, and of the commands only LOAD can set it. -/

namespace Sys2Proof.Machine

theorem State.setPix_paddingClear {s : State} {x : Word s.fmt.W} (hx : x &&& paddingMask s.fmt = 0) :
    (s.setPix x).PaddingClear := ⟨x, rfl, hx⟩

/-- Settles O36. -/
theorem resetHasClearPadding : Obligations.ResetHasClearPadding := fun _ => ⟨0, rfl, BitVec.zero_and⟩

theorem effect_and_paddingMask {f : Format} {i : Instr} (hload : opcode i ≠ 0b001) {x : Word f.W}
    (hx : x &&& paddingMask f = 0) : effect f i x &&& paddingMask f = 0 := by
  have hset : ∀ c v, effect f (setCommand c v) x &&& paddingMask f = 0 := fun c v => by
    rw [effect_setCommand, insertField_and_paddingMask, hx]
  cases i with
  | nop => exact hx
  | load raw => exact absurd rfl hload
  | pack r g b a => exact packWord_and_paddingMask f r g b a
  | setr v => exact hset .red v
  | setg v => exact hset .green v
  | setb v => exact hset .blue v
  | seta v => exact hset .alpha v

theorem exec_paddingClear {i : Instr} {s t : State} (hload : opcode i ≠ 0b001) (hs : s.PaddingClear)
    (h : exec i s = .next t) : t.PaddingClear := by
  obtain ⟨x, hx, hclear⟩ := hs
  obtain ⟨-, y, hy, rfl⟩ := exec_next_effect h
  obtain rfl : x = y := Option.some.inj (hx.symm.trans hy)
  exact State.setPix_paddingClear (effect_and_paddingMask hload hclear)

theorem PortSample.cmdOp_ne_load {DW : Nat} {e : PortSample DW} (he : e.presentsLoad = false) (hrst : e.rst = false)
    (hvalid : e.cmdValid = true) : e.cmdOp ≠ 0b001 := by
  simpa [PortSample.presentsLoad, hrst, hvalid] using he

theorem sampleEdge_paddingClear {s t : State} {e : PortSample s.fmt.DW} (he : e.presentsLoad = false)
    (hs : s.PaddingClear) (h : sampleEdge s e = .next t) : t.PaddingClear := by
  obtain ⟨-, rfl⟩ | ⟨hrst, hvalid, i, hi, hexec⟩ | ⟨-, -, rfl⟩ := sampleEdge_next h
  · exact State.setPix_paddingClear BitVec.zero_and
  · obtain ⟨-, hop⟩ := decode_eq_ok hi
    exact exec_paddingClear (hop ▸ e.cmdOp_ne_load he hrst hvalid) hs hexec
  · exact hs

theorem step_paddingClear {s t : State} (hport : ∀ e ∈ s.port, e.presentsLoad = false) (hs : s.PaddingClear)
    (h : step s = .next t) : t.PaddingClear := by
  obtain ⟨-, ⟨-, rfl⟩ | ⟨e, es, hp, hedge⟩⟩ := risingEdge_next h
  · exact hs
  · have he : e.presentsLoad = false := hport e (hp ▸ List.mem_cons_self)
    exact sampleEdge_paddingClear (s := s.withPort es) he hs hedge

/-- Settles O35: no sample still to come is a LOAD, so the step's command keeps the padding clear; the format stays and the
samples after the step are among those before it. -/
theorem paddingStaysClearWithoutLoad : Obligations.PaddingStaysClearWithoutLoad := by
  intro s t hwf hs hport hstep
  have hclear := step_paddingClear hport hs hstep
  obtain ⟨p, rfl⟩ := step_frame hstep
  exact ⟨hwf, hclear, fun e he => hport e (List.mem_of_mem_tail he)⟩

end Sys2Proof.Machine
end

section
/-! The further laws of the channels (00_scope.md section 4, 41_channel_set.md section 2), each read off bit by bit from the
field masks. -/

namespace Sys2Proof

theorem channelOf_lt (f : Format) (x : Word f.W) (c : Channel) : channelOf f x c < 2 ^ f.width c := by
  refine Nat.lt_pow_two_of_testBit _ fun i hi => ?_
  have hmask : (fieldMask f c).getLsbD (f.offset c + i) = false := by
    simp [getLsbD_fieldMask, hi]
  rw [testBit_channelOf, hmask, Bool.and_false]

/-- Settles O12. -/
theorem channelOfReadsTheField : Obligations.ChannelOfReadsTheField := fun f hwf x c =>
  ⟨testBit_channelOf_of_wf hwf x c, Nat.le_sub_one_of_lt (channelOf_lt f x c),
    fun hzero => channelOf_of_width_eq_zero hzero x⟩

/-- The padding mask has the bits that the four field masks leave, so together they have all. -/
theorem fieldMasks_or_paddingMask (f : Format) :
    fieldMask f .red ||| fieldMask f .green ||| fieldMask f .blue ||| fieldMask f .alpha ||| paddingMask f =
      BitVec.allOnes f.W := by
  refine BitVec.eq_of_getLsbD_eq fun i hi => ?_
  simp only [BitVec.getLsbD_or, BitVec.getLsbD_allOnes, getLsbD_paddingMask, hi, decide_true, Bool.true_and,
    Bool.or_not_self]

theorem and_eq_zero_of_no_shared_bit {w : Nat} {x y : BitVec w}
    (h : ∀ i, x.getLsbD i = true → y.getLsbD i = false) : x &&& y = 0 := by
  refine BitVec.eq_of_getLsbD_eq fun i _ => ?_
  rw [BitVec.getLsbD_and]
  cases hx : x.getLsbD i with
  | true => simp [h i hx]
  | false => simp

theorem fieldMask_and_fieldMask_of_ne {f : Format} (hwf : f.wf = true) {c d : Channel} (hcd : c ≠ d) :
    fieldMask f c &&& fieldMask f d = 0 :=
  and_eq_zero_of_no_shared_bit (fieldMask_disjoint hwf hcd)

theorem fieldMask_and_paddingMask (f : Format) (c : Channel) : fieldMask f c &&& paddingMask f = 0 :=
  and_eq_zero_of_no_shared_bit fun _ hc => getLsbD_paddingMask_of_fieldMask hc

/-- Settles O13. -/
theorem masksPartitionTheWord : Obligations.MasksPartitionTheWord := fun f hwf =>
  ⟨fieldMasks_or_paddingMask f, fun _ _ hcd => fieldMask_and_fieldMask_of_ne hwf hcd, fieldMask_and_paddingMask f⟩

theorem insertField_insertField_same (f : Format) (x : Word f.W) (c : Channel) (v u : Nat) :
    insertField f (insertField f x c v) c u = insertField f x c u := by
  refine BitVec.eq_of_getLsbD_eq fun i _ => ?_
  simp only [getLsbD_insertField]
  split <;> rfl

/-- No bit lies in both fields, so each bit sees at most one of the two insertions. -/
theorem insertField_comm_of_ne {f : Format} (hwf : f.wf = true) {c d : Channel} (hcd : c ≠ d) (x : Word f.W) (v u : Nat) :
    insertField f (insertField f x c v) d u = insertField f (insertField f x d u) c v := by
  refine BitVec.eq_of_getLsbD_eq fun i _ => ?_
  simp only [getLsbD_insertField]
  cases hc : (fieldMask f c).getLsbD i with
  | true => simp [fieldMask_disjoint hwf hcd i hc]
  | false => simp

theorem insertField_channelOf (f : Format) (x : Word f.W) (c : Channel) : insertField f x c (channelOf f x c) = x := by
  refine BitVec.eq_of_getLsbD_eq fun i _ => ?_
  rw [getLsbD_insertField]
  cases hc : (fieldMask f c).getLsbD i with
  | true =>
    have hoffset : f.offset c ≤ i := by
      simp only [getLsbD_fieldMask, Bool.and_eq_true, decide_eq_true_eq] at hc
      omega
    simp [testBit_channelOf, Nat.add_sub_cancel' hoffset, hc]
  | false => simp

/-- Settles O10. -/
theorem furtherChannelIdentities : Obligations.FurtherChannelIdentities := fun f hwf x c v u =>
  ⟨insertField_insertField_same f x c v u, fun _ hdc => insertField_comm_of_ne hwf hdc.symm x v u,
    insertField_channelOf f x c, Nat.le_sub_one_of_lt (channelOf_lt f x c)⟩

/-- NOP keeps the word, LOAD and PACK do not read it, and an insertion overwrites what the same insertion wrote. -/
theorem Machine.effect_effect (f : Format) (i : Instr) (x : Word f.W) :
    Machine.effect f i (Machine.effect f i x) = Machine.effect f i x := by
  cases i with
  | nop => rfl
  | load raw => rfl
  | pack r g b a => rfl
  | setr v => exact insertField_insertField_same f x .red v v
  | setg v => exact insertField_insertField_same f x .green v v
  | setb v => exact insertField_insertField_same f x .blue v v
  | seta v => exact insertField_insertField_same f x .alpha v v

/-- Settles O6: a command leaves its effect in `PIX`, and the effect of that is itself. -/
theorem commandsAreIdempotent : Obligations.CommandsAreIdempotent := by
  intro i s t h
  obtain ⟨hwf, x, hx, rfl⟩ := Machine.exec_next_effect h
  rw [Machine.exec_running (s := s.setPix (Machine.effect s.fmt i x)) hwf rfl]
  exact congrArg (fun y => Host.Outcome.next (s.setPix y)) (Machine.effect_effect s.fmt i x)

end Sys2Proof
end

section
/-! A command presented on the port has the effect it has when run directly, even with operands wider than the bus carries:
the bits the bus drops are bits the effect does not read (00_scope.md R9 condition 3, 40_construct.md R45). -/

namespace Sys2Proof

/-- A field is no wider than an operand, so the operand's higher bits never reach it. -/
theorem placed_mod {f : Format} (hwf : f.wf = true) (c : Channel) (v : Nat) : placed f c (v % 2 ^ f.CW) = placed f c v := by
  have hmask : v % 2 ^ f.CW &&& widthMask f c = v &&& widthMask f c := by
    rw [widthMask, Nat.and_two_pow_sub_one_eq_mod, Nat.and_two_pow_sub_one_eq_mod,
      Nat.mod_mod_of_dvd _ (Nat.pow_dvd_pow 2 (Format.width_le_CW_of_wf hwf c))]
  rw [placed, hmask, placed]

theorem insertField_mod {f : Format} (hwf : f.wf = true) (x : Word f.W) (c : Channel) (v : Nat) :
    insertField f x c (v % 2 ^ f.CW) = insertField f x c v := by
  rw [insertField, placed_mod hwf, insertField]

theorem packWord_mod {f : Format} (hwf : f.wf = true) (r g b a : Nat) :
    packWord f (r % 2 ^ f.CW) (g % 2 ^ f.CW) (b % 2 ^ f.CW) (a % 2 ^ f.CW) = packWord f r g b a := by
  simp only [packWord, placed_mod hwf]

namespace Machine

theorem effect_truncate {f : Format} (hwf : f.wf = true) (i : Instr) (x : Word f.W) :
    effect f (i.truncate f) x = effect f i x := by
  cases i with
  | nop => rfl
  | load raw => exact BitVec.eq_of_toNat_eq (by simp [effect, Instr.truncate])
  | pack r g b a => exact packWord_mod hwf r g b a
  | setr v => exact insertField_mod hwf x .red v
  | setg v => exact insertField_mod hwf x .green v
  | setb v => exact insertField_mod hwf x .blue v
  | seta v => exact insertField_mod hwf x .alpha v

/-- A running block computes the same effect; any other block refuses every command for the same reason. -/
theorem exec_truncate (i : Instr) (s : State) : exec (i.truncate s.fmt) s = exec i s := by
  cases hwf : s.fmt.wf with
  | false => rw [exec_of_ill_formed hwf, exec_of_ill_formed hwf]
  | true =>
    cases hx : s.pix with
    | none => rw [exec_of_none hwf hx, exec_of_none hwf hx]
    | some x => rw [exec_running hwf hx, exec_running hwf hx, effect_truncate hwf]

/-- An edge that presents a command runs the command, in any state and for any operands. -/
theorem step_command (i : Instr) (s : State) (es : List (PortSample s.fmt.DW)) :
    step (s.withPort (.command s.fmt i :: es)) = exec i (s.withPort es) := by
  cases hwf : s.fmt.wf with
  | false =>
    rw [step_of_ill_formed (s := s.withPort (.command s.fmt i :: es)) hwf, exec_of_ill_formed (s := s.withPort es) hwf]
  | true =>
    calc step (s.withPort (.command s.fmt i :: es))
        = sampleEdge (s.withPort es) (.command s.fmt i) :=
          step_of_port_cons (s := s.withPort (.command s.fmt i :: es)) hwf rfl
      _ = exec (i.truncate s.fmt) (s.withPort es) := sampleEdge_present_of_decode (decode_operandBus s.fmt i)
      _ = exec i (s.withPort es) := exec_truncate i (s.withPort es)

/-- Settles O19: the assembler puts a fitting command's opcode and bus on the port, where it decodes to itself. -/
theorem assembledLinePresentsItsCommand : Obligations.AssembledLinePresentsItsCommand := by
  intro f
  refine ⟨fun l i hl => ⟨fun hwf => ?fits, fun hwf => ?tooWide⟩, rfl, fun v => ⟨rfl, rfl, rfl, rfl⟩, ?reset⟩
  case fits => exact ⟨.command f i, by simp [assembleLine, hl, hwf], rfl, rfl, decode_operandBus_of_wf hwf⟩
  case tooWide => simp [assembleLine, hl, hwf]
  case reset => exact ⟨.reset, rfl, rfl, rfl⟩

end Machine

end Sys2Proof
end

section
/-! Runs (70_reset_and_hazards.md R67): commands presented back to back are the commands' meanings one after another
(20_memory.md R34), and on a running block those are the commands' effects one after another. -/

namespace Sys2Proof.Machine

theorem run_succ_of_next {s t : State} (h : step s = .next t) (k : Nat) : run (k + 1) s = run k t := by
  rw [run_succ, h]

theorem run_succ_of_refused {s : State} {r : Refusal} (h : step s = .refused r) (k : Nat) :
    run (k + 1) s = .refused r := by
  rw [run_succ, h]

theorem execAll_cons_of_next {i : Instr} {s t : State} (h : exec i s = .next t) (is : List Instr) :
    execAll (i :: is) s = execAll is t := by
  rw [execAll, h]

theorem execAll_cons_of_refused {i : Instr} {s : State} {r : Refusal} (h : exec i s = .refused r) (is : List Instr) :
    execAll (i :: is) s = .refused r := by
  rw [execAll, h]

/-- What a command answers does not depend on what the host is to drive, and it leaves the port alone. -/
theorem exec_withPort (i : Instr) (s : State) :
    (∃ r, ∀ es, exec i (s.withPort es) = .refused r) ∨
      ∃ y, ∀ es, exec i (s.withPort es) = .next ((s.setPix y).withPort es) := by
  cases hwf : s.fmt.wf with
  | false => exact .inl ⟨_, fun es => exec_of_ill_formed (s := s.withPort es) hwf i⟩
  | true =>
    cases hx : s.pix with
    | none => exact .inl ⟨_, fun es => exec_of_none (s := s.withPort es) hwf hx i⟩
    | some x => exact .inr ⟨effect s.fmt i x, fun es => exec_running (s := s.withPort es) hwf hx i⟩

/-- The edges that present `is` have the outcome of `is`, whatever the host drives after them. -/
theorem run_map_command (is : List Instr) (s : State) (es : List (PortSample s.fmt.DW)) :
    run is.length (s.withPort (is.map (.command s.fmt) ++ es)) = execAll is (s.withPort es) := by
  induction is generalizing s with
  | nil => rfl
  | cons i is ih =>
    have hstep := step_command i s (is.map (.command s.fmt) ++ es)
    obtain ⟨r, hr⟩ | ⟨y, hy⟩ := exec_withPort i s
    · rw [execAll_cons_of_refused (hr es)]
      exact run_succ_of_refused (hstep.trans (hr _)) is.length
    · rw [execAll_cons_of_next (hy es), ← ih (s.setPix y) es]
      exact run_succ_of_next (hstep.trans (hy _)) is.length

/-- Settles O38: here the bound on the operands is not needed, as the bus drops only bits that no effect reads. -/
theorem portRunIsTheCommandSequence : Obligations.PortRunIsTheCommandSequence := by
  intro is s _
  simpa using run_map_command is s []

theorem execAll_running (is : List Instr) {s : State} {x : Word s.fmt.W} (hwf : s.fmt.wf = true) (hx : s.pix = some x) :
    execAll is s = .next (s.setPix (is.foldl (fun y i => effect s.fmt i y) x)) := by
  induction is generalizing s with
  | nil => rw [List.foldl_nil, State.setPix_of_pix hx]; rfl
  | cons i is ih =>
    rw [execAll_cons_of_next (exec_running hwf hx i)]
    exact ih (s := s.setPix (effect s.fmt i x)) hwf rfl

theorem effect_setCommand_comm {f : Format} (hwf : f.wf = true) (v : Channel → Nat) (c d : Channel) (x : Word f.W) :
    effect f (setCommand d (v d)) (effect f (setCommand c (v c)) x) =
      effect f (setCommand c (v c)) (effect f (setCommand d (v d)) x) := by
  by_cases hcd : c = d
  · rw [hcd]
  · simp only [effect_setCommand, insertField_comm_of_ne hwf hcd]

/-- One set per channel: the sets commute, so in any order they do what they do in PACK's order. -/
theorem foldl_sets_eq_packWord {f : Format} (hwf : f.wf = true) {r g b a : Nat} {sets : List Instr}
    (hperm : sets.Perm [.setr r, .setg g, .setb b, .seta a]) :
    sets.foldl (fun y i => effect f i y) 0 = packWord f r g b a := by
  have hsets : ∀ i ∈ sets, ∃ c, i = setCommand c (packValue r g b a c) := fun i hi => by
    have hmem : i ∈ Channel.all.map fun c => setCommand c (packValue r g b a c) := hperm.mem_iff.mp hi
    obtain ⟨c, -, hc⟩ := List.mem_map.mp hmem
    exact ⟨c, hc.symm⟩
  calc sets.foldl (fun y i => effect f i y) 0
      = [Instr.setr r, .setg g, .setb b, .seta a].foldl (fun y i => effect f i y) 0 := by
        refine hperm.foldl_eq' (fun i hi j hj y => ?_) 0
        obtain ⟨c, rfl⟩ := hsets i hi
        obtain ⟨d, rfl⟩ := hsets j hj
        exact effect_setCommand_comm hwf _ _ _ y
    _ = packWord f r g b a := (packWord_eq_insertField hwf r g b a).symm

/-- A channel of PACK's word reads what it reads after its value alone is inserted into 0. -/
theorem channelOf_packWord {f : Format} (hwf : f.wf = true) (r g b a : Nat) (c : Channel) :
    channelOf f (packWord f r g b a) c = packValue r g b a c &&& widthMask f c := by
  have hinsert (v : Nat) : insertField f 0 c v = placed f c v :=
    (insertField_eq_or BitVec.zero_and v).trans BitVec.zero_or
  rw [← channelOf_insertField_same hwf 0, channelOf, channelOf, packWord_and_fieldMask hwf, hinsert, placed_and_fieldMask]

/-- Settles O11: the five edges run the five commands, CLEAR leaves 0, and from 0 the sets build PACK's word. -/
theorem setsInAnyOrderEqualPack : Obligations.SetsInAnyOrderEqualPack := by
  intro s x hwf hx r g b a sets hperm
  have hlength : 5 = (Instr.load 0 :: sets).length := by simp [hperm.length_eq]
  refine ⟨packWord s.fmt r g b a, ?port, exec_running hwf hx (.pack r g b a), channelOf_packWord hwf r g b a,
    packWord_and_paddingMask s.fmt r g b a⟩
  case port =>
    rw [hlength, run_map_command, State.withPort_self, execAll_running _ hwf hx, List.foldl_cons]
    exact congrArg (fun y => Host.Outcome.next (s.setPix y)) (foldl_sets_eq_packWord hwf hperm)

/-- Settles O37: the first edge of the run leaves 0 in `PIX` of either block. -/
theorem resetErasesHistory : Obligations.ResetErasesHistory := by
  intro f p q e es k hrst
  have hstep (p : Option (Word f.W)) (hwf : f.wf = true) :
      step { fmt := f, pix := p, port := e :: es } = .next { fmt := f, pix := some 0, port := es } := by
    rw [step_cons hwf, sampleEdge_of_rst hrst]
    rfl
  cases hwf : f.wf with
  | true => rw [run_succ_of_next (hstep p hwf), run_succ_of_next (hstep q hwf)]
  | false => rw [run_succ_of_refused (step_of_ill_formed hwf), run_succ_of_refused (step_of_ill_formed hwf)]

theorem run_next_running {k : Nat} {s t : State} (hs : s.Running) (h : run k s = .next t) :
    t.fmt = s.fmt ∧ t.Running := by
  induction k generalizing s with
  | zero => cases h; exact ⟨rfl, hs⟩
  | succ k ih =>
    cases hstep : step s with
    | next u =>
      rw [run_succ_of_next hstep] at h
      obtain ⟨hfmt, ht⟩ := ih (step_running hs hstep) h
      obtain ⟨p, rfl⟩ := step_frame hstep
      exact ⟨hfmt, ht⟩
    | fault r => exact absurd hstep (step_ne_fault s r)
    | refused r => rw [run_succ_of_refused hstep] at h; cases h

/-- A running block gets through all its samples exactly when none of them presents the reserved opcode. -/
theorem exists_run_next_iff {f : Format} (hwf : f.wf = true) (x : Word f.W) (es : List (PortSample f.DW)) :
    (∃ t, run es.length { fmt := f, pix := some x, port := es } = .next t) ↔
      ∀ e ∈ es, e.presentsReserved = false := by
  induction es generalizing x with
  | nil => exact ⟨fun _ e he => absurd he List.not_mem_nil, fun _ => ⟨_, rfl⟩⟩
  | cons e es ih =>
    rw [List.forall_mem_cons, List.length_cons]
    cases he : e.presentsReserved with
    | true =>
      have hstep : step { fmt := f, pix := some x, port := e :: es } = .refused (.undecodable .reservedOpcode) := by
        rw [step_cons hwf, sampleEdge_of_presentsReserved he]
      rw [run_succ_of_refused hstep]
      simp
    | false =>
      have hs : (State.mk f (some x) (e :: es)).Running := ⟨hwf, rfl⟩
      obtain ⟨t, hstep⟩ := exists_step_next hs fun d ds hport => by cases hport; exact he
      have ht := step_running hs hstep
      obtain ⟨p, rfl⟩ := step_frame hstep
      obtain ⟨y, rfl⟩ : ∃ y, p = some y := Option.isSome_iff_exists.mp ht.2
      rw [run_succ_of_next hstep]
      simpa using ih y

theorem State.Running.readOut {s : State} (hs : s.Running) : ∃ n, s.readOut = .next n ∧ n < 2 ^ s.fmt.W := by
  obtain ⟨x, -, hout⟩ := hs.pixOut
  exact ⟨x.toNat, by rw [State.readOut, hout], x.isLt⟩

theorem observe_of_run_next {f : Format} {es : List (PortSample f.DW)} {t : State}
    (h : run es.length ((State.resetOf f).withPort es) = .next t) : observe f es = t.readOut := by
  rw [observe, h]

/-- An observation is read from the state in which the run ends. -/
theorem observe_next {f : Format} {es : List (PortSample f.DW)} {n : Nat} (h : observe f es = .next n) :
    ∃ t, run es.length ((State.resetOf f).withPort es) = .next t ∧ t.readOut = .next n := by
  unfold observe at h
  split at h
  · rename_i t ht
    exact ⟨t, ht, h⟩
  · cases h
  · cases h

/-- Settles O39: a run that gets through its samples ends in a running block, and that shows a word of the run's format. -/
theorem runIsObservedUnlessReserved : Obligations.RunIsObservedUnlessReserved := by
  intro f hwf es
  have hreset : ((State.resetOf f).withPort es).Running := ⟨hwf, rfl⟩
  have hcompletes := exists_run_next_iff hwf 0 es
  refine ⟨⟨?unreserved, ?observed⟩, ?bound⟩
  case unreserved =>
    rintro ⟨n, hn⟩
    obtain ⟨t, hrun, -⟩ := observe_next hn
    exact hcompletes.mp ⟨t, hrun⟩
  case observed =>
    intro hes
    obtain ⟨t, hrun⟩ := hcompletes.mpr hes
    obtain ⟨-, ht⟩ := run_next_running hreset hrun
    obtain ⟨n, hn, -⟩ := ht.readOut
    exact ⟨n, (observe_of_run_next hrun).trans hn⟩
  case bound =>
    intro n hn
    obtain ⟨t, hrun, hread⟩ := observe_next hn
    obtain ⟨hfmt, ht⟩ := run_next_running hreset hrun
    obtain ⟨m, hm, hlt⟩ := ht.readOut
    obtain rfl : m = n := Host.Outcome.next.inj (hm.symm.trans hread)
    have hW : t.fmt.W = f.W := congrArg Format.W hfmt
    rwa [hW] at hlt

end Sys2Proof.Machine
end

section
/-! The standard formats of 00_scope.md R11, and a word laid out as bytes (20_memory.md R31). -/

namespace Sys2Proof

/-- Settles O22 by evaluating the five formats. -/
theorem standardFormatsMatchTheTable : Obligations.StandardFormatsMatchTheTable := by
  unfold Obligations.StandardFormatsMatchTheTable
  decide

theorem getLsbD_wordByte {W : Nat} (x : Word W) (k : Nat) {j : Nat} (hj : j < 8) :
    (wordByte x k).getLsbD j = x.getLsbD (8 * k + j) := by
  simp [wordByte, hj]

theorem storageBytes_little_length {W : Nat} (x : Word W) : (storageBytes .little x).length = (W + 7) / 8 := by
  simp [storageBytes]

theorem storageBytes_little_getElem? {W : Nat} {x : Word W} {k : Nat} {byte : BitVec 8}
    (h : (storageBytes .little x)[k]? = some byte) : byte = wordByte x k := by
  obtain ⟨hk, rfl⟩ := List.getElem?_eq_some_iff.mp h
  simp [storageBytes]

/-- Settles O40. -/
theorem serialisedBytesHoldTheWord : Obligations.SerialisedBytesHoldTheWord := by
  intro W x
  refine ⟨storageBytes_little_length x, fun k byte hbyte j hj => ?bits, rfl⟩
  case bits => rw [storageBytes_little_getElem? hbyte, getLsbD_wordByte x k hj]

end Sys2Proof
end
